-- ==== Sys2Proof/Word.lean ====
section
/-! DEFINITION. The word types of LSBPACK: bytes of PIX and MSG, and 32-bit registers (spec R8, R33). -/

namespace Sys2Proof

/-- A byte of the PIX or MSG memory, or a message byte (R33, R40). -/
abbrev Byte := BitVec 8

/-- A register's value, and a command word: `XLEN = 32` bits (R8, R70). -/
abbrev Word := BitVec 32

end Sys2Proof
end

