-- ==== Sys2Proof/Config.lean ====
section
/-! DEFINITION. The implementation parameters of LSBPACK (spec R9, R10): PIXMAX, MSGMAX and STRICT_K8. They are fixed for one
instance of the block and no step changes them. The remaining parameters of spec R7 to R11 are constants of the architecture
(written as numerals where R7 gives them) or host-side (CharToByte, Machine/HostProgram.lean). -/

namespace Sys2Proof

/-- The named parameters "the model takes as arguments" (R9, R10). -/
structure Config where
  /-- `PIXMAX`: the number of pixels the PIX memory holds (R9). -/
  pixMax : Nat
  /-- `MSGMAX`: the number of bytes the MSG memory holds (R9). -/
  msgMax : Nat
  /-- `STRICT_K8`: whether DECODE fails when the delimiter is at an offset that is no multiple of 8 (R10). -/
  strictK8 : Bool
deriving DecidableEq, Repr

/-- What the parameters obey: `0 <= PIXMAX <= 2^30 - 1`, `0 <= MSGMAX <= 2^32 - 1` and
`MSGMAX >= max(0, (3*PIXMAX - 16) div 8)` (R9). Subtraction of naturals stops at 0, which is the rule's `max(0, …)`. -/
abbrev Config.Valid (c : Config) : Prop :=
  c.pixMax ≤ 2 ^ 30 - 1 ∧ c.msgMax ≤ 2 ^ 32 - 1 ∧ (3 * c.pixMax - 16) / 8 ≤ c.msgMax

end Sys2Proof
end

