-- ==== Sys2Proof/Syntax.lean ====
section
/-! DEFINITION. The commands of LSBPACK: one constructor per row of spec/opcode_table.json (spec R14, R72). The host's
transactions are not commands; they stand in Machine/Port.lean. -/

namespace Sys2Proof

/-- The two commands (R14). Neither has an operand in its word (R73). -/
inductive Instr where
  /-- ENCODE, word 0x00000001: hide the message MSG in the payload channel LSBs of PIX (R120). -/
  | encode
  /-- DECODE, word 0x00000002: recover a message from the payload channel LSBs of PIX (R140). -/
  | decode
deriving DecidableEq, Repr

end Sys2Proof
end

