-- ==== Sys2Proof/Machine/Port.lean ====
section
/-! DEFINITION. What the outside world can do to LSBPACK: the host's transactions (spec R80 to R86), the platform's reset
(spec R190), and the order in which host, engine and platform act (spec R12, R63, R210). -/

namespace Sys2Proof.Machine

/-- The three disjoint address spaces (R50). -/
inductive Space where
  /-- The five registers (R51). -/
  | reg
  /-- The pixel memory (R52). -/
  | pix
  /-- The message memory (R54). -/
  | msg
deriving DecidableEq, Repr

/-- The five registers (R20). -/
inductive Reg where
  /-- Number 0: the last command word the host wrote (R21). -/
  | cmd
  /-- Number 1: state and result code, read-only to the host (R22). -/
  | status
  /-- Number 2: the pixel count N (R27). -/
  | pixcnt
  /-- Number 3: the message length L (R28). -/
  | msglen
  /-- Number 4: the delimiter's bit offset, read-only to the host (R29). -/
  | dpos
deriving DecidableEq, Repr

/-- Accesses that are not architected (R57, R206). -/
inductive OddAccess where
  /-- A PIX access of `bytes` bytes, not one. -/
  | pixWide (address bytes : Nat)
  /-- A MSG access of `bytes` bytes, not one. -/
  | msgWide (address bytes : Nat)
  /-- An access to part of a register. -/
  | registerPart (number : Nat)
  /-- A burst of accesses to one space. -/
  | burst (space : Space) (first count : Nat)
deriving DecidableEq, Repr

/-- What the host can attempt in one transaction. A register is named by its number and a memory byte by its address, so that
the attempts the spec gives no meaning (R203) can be written down. -/
inductive Transaction where
  /-- `WR reg, v` (R80, R88). -/
  | wr (number : Nat) (v : Word)
  /-- `RD reg` (R81). -/
  | rd (number : Nat)
  /-- `WRPIX a, v` (R82). -/
  | wrPix (a : Nat) (v : Byte)
  /-- `RDPIX a` (R83). -/
  | rdPix (a : Nat)
  /-- `WRMSG j, v` (R84). -/
  | wrMsg (j : Nat) (v : Byte)
  /-- `RDMSG j` (R85). -/
  | rdMsg (j : Nat)
  /-- `POLL`: read STATUS until STATE is not BUSY, and yield that value (R86). -/
  | poll
  /-- An access of another width (R206). -/
  | odd (x : OddAccess)
deriving DecidableEq, Repr

/-- Who acts next, and with what. -/
inductive Turn where
  /-- The engine acts: it performs the latched command, if there is one (R12). -/
  | engine
  /-- The host makes a transaction (R12). -/
  | host (x : Transaction)
  /-- The platform raises reset (R190). -/
  | reset
deriving DecidableEq, Repr

/-- What a read gives back to the host. -/
inductive Reply where
  /-- The 32-bit value of a register (R81, R86). -/
  | word (v : Word)
  /-- The byte at a PIX or MSG address (R83, R85). -/
  | byte (v : Byte)
deriving DecidableEq, Repr

end Sys2Proof.Machine
end

