-- ==== Sys2Proof/WellFormed.lean ====
section
/-! DEFINITION. Which terms have a meaning by their form alone: commands (spec R73), parameters (`Config.Valid`, spec R9) and
host transactions (spec R80 to R85, R203, R204, R206). -/

namespace Sys2Proof

/-- A command has no operand (R73), so each of the two is well formed. -/
def Instr.wellFormed : Instr → Bool
  | .encode => true
  | .decode => true

namespace Machine

/-- The transactions whose form has a meaning in some state: the register exists (R203) and is writable when written (R204),
the address lies inside its memory (R203), the width is the architected one (R206). Whether the block is BUSY (R200) and
whether a byte read is defined (R202) depend on the state and are no part of this check. -/
def Transaction.wellFormed (c : Config) : Transaction → Bool
  | .wr n _ => n == 0 || n == 2 || n == 3
  | .rd n => decide (n < 5)
  | .wrPix a _ => decide (a < 4 * c.pixMax)
  | .rdPix a => decide (a < 4 * c.pixMax)
  | .wrMsg j _ => decide (j < c.msgMax)
  | .rdMsg j => decide (j < c.msgMax)
  | .poll => true
  | .odd _ => false

end Machine

end Sys2Proof
end

