-- ==== Sys2Proof/Decode.lean ====
section
/-! DEFINITION. The command decoder `DecodeCmd`, total on 32-bit words and rejecting by name (spec R70 to R76), and after it
the encoder. -/

namespace Sys2Proof

/-- Why a word is reserved (R75). -/
inductive DecodeError where
  /-- OP is neither 1 nor 2. -/
  | reservedOp (op : BitVec 4)
  /-- OP is 1 or 2 and the field ZERO is not 0. -/
  | zeroFieldNotZero (zero : BitVec 28)
deriving DecidableEq, Repr

/-- Field OP, bits 3:0 (R71). -/
def opField (w : Word) : BitVec 4 := w.extractLsb' 0 4

/-- Field ZERO, bits 31:4, "must be 0" (R71). -/
def zeroField (w : Word) : BitVec 28 := w.extractLsb' 4 28

/-- The opcode map on OP (R72). -/
def commandOfOp (op : BitVec 4) : Except DecodeError Instr :=
  if op = 1#4 then .ok .encode
  else if op = 2#4 then .ok .decode
  else .error (.reservedOp op)

/-- `DecodeCmd(w)`: total on 32-bit words; every word but the two commands is reserved (R72, R75). -/
def decodeCmd (w : Word) : Except DecodeError Instr :=
  match commandOfOp (opField w) with
  | .error e => .error e
  | .ok i => if zeroField w = 0#28 then .ok i else .error (.zeroFieldNotZero (zeroField w))

/-- The OP of a command (R72). -/
def opOf : Instr → BitVec 4
  | .encode => 1#4
  | .decode => 2#4

/-- The command word of a command: ZERO then OP, most significant first (R71, R72). -/
def encode (i : Instr) : Word := 0#28 ++ opOf i

/-- The command the decoder reads from the word `w` of `nbits` bits. A command is one 32-bit word (R70, R76), so bits above
`nbits` are 0 and a longer word is none. -/
def decodeTableWord (nbits w : Nat) : Option Instr :=
  if nbits ≤ 32 then
    match decodeCmd (BitVec.ofNat 32 (w % 2 ^ nbits)) with
    | .ok i => some i
    | .error _ => none
  else none

end Sys2Proof
end

