-- ==== Sys2Proof/Machine/Reference.lean ====
section
/-! DEFINITION. The parameters that `State.reset` stands for. DESIGN CHOICE (log 1, unsafe): the spec leaves PIXMAX, MSGMAX
and STRICT_K8 open; these are the values its own vectors and programs use (95_test_vectors.md sections 2.6 and 3). -/

namespace Sys2Proof

/-- `PIXMAX = 16`, `MSGMAX = 8`, `STRICT_K8 = 0` (95_test_vectors.md section 3). No statement rests on these values. -/
def Config.reference : Config := { pixMax := 16, msgMax := 8, strictK8 := false }

end Sys2Proof
end

