-- ==== Sys2Proof/Machine/State.lean ====
section
/-! DEFINITION. The state of LSBPACK (spec R13, R20, R31 to R33), its reset value (spec R38), and the reasons a step can stop. -/

namespace Sys2Proof.Machine

/-- A byte memory: (address, byte) pairs, addresses strictly rising. An address not listed is an undefined byte: it holds no
value (R33). -/
abbrev Memory := List Host.Cell

/-- The canonical form: addresses strictly rising. An unlisted address has no value, so no entry can equal it. -/
abbrev Memory.wf (m : Memory) : Prop := m.Pairwise fun x y => x.1 < y.1

/-- The machine's faults: there are none. "A command never traps and never hangs: it ends in DONE or in ERROR" (R16); the
result codes are values of STATUS, not faults (R170). -/
inductive Fault where
deriving DecidableEq, Repr

/-- Why a step is refused: the spec gives the attempt no meaning, "a model refuses the transaction" (R200 to R206). All are
safe: nothing is claimed of a run that attempts one. -/
inductive Refusal where
  /-- An instruction without a meaning in exec. No arm of exec raises it. Safe. -/
  | notModelled (mnemonic : String)
  /-- Raised by a host transaction other than `RD STATUS` or a command issue while STATE is BUSY (R200). Safe. -/
  | accessWhileBusy
  /-- Raised by `WR CMD` while STATE is BUSY (R201). Safe. -/
  | issueWhileBusy
  /-- Raised by `RDPIX`, `RDMSG`, ENCODE and DECODE when they would read an undefined byte of `space`, and by `RD STATUS`
  while such a command is latched (R202). Safe. -/
  | undefinedByte (space : Space)
  /-- Raised by a PIX or MSG transaction beyond the memory (R203). Safe. -/
  | outOfRange (space : Space) (address : Nat)
  /-- Raised by `RD` or `WR` of a register number above 4 (R203). Safe. -/
  | noSuchRegister (number : Nat)
  /-- Raised by `WR STATUS` and `WR DPOS` (R204). Safe. -/
  | readOnlyRegister (reg : Reg)
  /-- Raised by an access of a width that is not architected (R206). Safe. -/
  | oddAccess (x : OddAccess)
deriving DecidableEq, Repr

/-- The whole state. The first field holds the parameters, the next seven are the spec's state (R13), the last two are the
outside world's (log 2, log 3). -/
structure State where
  /-- PIXMAX, MSGMAX, STRICT_K8 of this instance (R9, R10); no step changes them (log 1). -/
  cfg : Config
  /-- CMD, register 0 (R21). -/
  cmd : Word
  /-- STATUS, register 1 (R22). -/
  status : Word
  /-- PIXCNT, register 2 (R27). -/
  pixcnt : Word
  /-- MSGLEN, register 3 (R28). -/
  msglen : Word
  /-- DPOS, register 4 (R29). -/
  dpos : Word
  /-- The PIX memory (R31). -/
  pix : Memory
  /-- The MSG memory (R32). -/
  msg : Memory
  /-- Who acts next and with what: the schedule of engine turns, host transactions and resets still to come (log 2). -/
  turns : List Turn
  /-- What the host's reads have returned, newest first (log 3). -/
  replies : List Reply
deriving DecidableEq, Repr

/-- The state after reset of a block with parameters `c`: registers 0, every byte undefined (R38, R191, R192), nothing
scheduled and nothing read (R194). -/
def State.resetOf (c : Config) : State where
  cfg := c
  cmd := 0#32
  status := 0#32
  pixcnt := 0#32
  msglen := 0#32
  dpos := 0#32
  pix := []
  msg := []
  turns := []
  replies := []

/-- The state after reset (R38), for the reference parameters (log 1). -/
def State.reset : State := State.resetOf Config.reference

end Sys2Proof.Machine
end

