-- ==== Sys2Proof/Machine/Flags.lean ====
section
/-! DEFINITION. The fields of STATUS and every value written to it (spec R22 to R26, R160, R165, R166). -/

namespace Sys2Proof.Machine

/-- STATUS.STATE, bits 1:0 (R23). -/
inductive RunState where
  /-- 0: no command issued since reset. -/
  | idle
  /-- 1: a command is issued and not yet performed. -/
  | busy
  /-- 2: the last command ended with success. -/
  | done
  /-- 3: the last command ended with a result code other than None. -/
  | error
deriving DecidableEq, Repr

/-- The result codes a failing command ends in, with the records each carries (R160). -/
inductive Failure where
  /-- ERR 1, with EI (the image was empty) and EM (the message was empty) (R161). -/
  | emptyInput (ei em : Bool)
  /-- ERR 2 (R162). -/
  | capacityExceeded
  /-- ERR 3 (R163). -/
  | noHiddenMessage
  /-- ERR 4 (R164). -/
  | illegalCommand
deriving DecidableEq, Repr

/-- The ERR number (R160). -/
def Failure.code : Failure → Nat
  | .emptyInput _ _ => 1
  | .capacityExceeded => 2
  | .noHiddenMessage => 3
  | .illegalCommand => 4

/-- STATUS.EI: 0 unless the code is EmptyInput (R25, R166). -/
def Failure.ei : Failure → Bool
  | .emptyInput ei _ => ei
  | .capacityExceeded => false
  | .noHiddenMessage => false
  | .illegalCommand => false

/-- STATUS.EM: 0 unless the code is EmptyInput (R25, R166). -/
def Failure.em : Failure → Bool
  | .emptyInput _ em => em
  | .capacityExceeded => false
  | .noHiddenMessage => false
  | .illegalCommand => false

/-- STATUS just after an issue: STATE BUSY, ERR None, EI 0, EM 0 (R88). -/
def statusBusy : Word := 0x00000001#32

/-- STATUS after success: STATE DONE, ERR None, EI 0, EM 0 (R165). -/
def statusDone : Word := 0x00000002#32

/-- STATUS after a failure: `3 | (code(K) << 2) | (EI << 5) | (EM << 6)` (R166). -/
def statusOfFailure (k : Failure) : Word :=
  3#32 ||| (BitVec.ofNat 32 k.code <<< 2) ||| (BitVec.ofNat 32 k.ei.toNat <<< 5) ||| (BitVec.ofNat 32 k.em.toNat <<< 6)

/-- STATE, bits 1:0, of a STATUS word (R22). -/
def stateField (w : Word) : RunState :=
  if w.extractLsb' 0 2 = 0#2 then .idle
  else if w.extractLsb' 0 2 = 1#2 then .busy
  else if w.extractLsb' 0 2 = 2#2 then .done
  else .error

/-- ERR, bits 4:2, of a STATUS word (R24). -/
def errField (w : Word) : BitVec 3 := w.extractLsb' 2 3

/-- EI, bit 5, of a STATUS word (R25). -/
def eiField (w : Word) : Bool := w.getLsbD 5

/-- EM, bit 6, of a STATUS word (R25). -/
def emField (w : Word) : Bool := w.getLsbD 6

/-- The failure a STATUS word names by its ERR, with EI and EM (R89, R160); none for ERR 0 (None) and for the numbers no
result code has. -/
def failureNamed (w : Word) : Option Failure :=
  if errField w = 1#3 then some (.emptyInput (eiField w) (emField w))
  else if errField w = 2#3 then some .capacityExceeded
  else if errField w = 3#3 then some .noHiddenMessage
  else if errField w = 4#3 then some .illegalCommand
  else none

/-- The nine values the whole register takes (R26). -/
def statusValues : List Word :=
  [0x00000000#32, 0x00000001#32, 0x00000002#32, 0x00000027#32, 0x00000047#32, 0x00000067#32, 0x0000000B#32, 0x0000000F#32,
    0x00000013#32]

/-- STATUS.STATE of the block (R23). -/
def State.runState (s : State) : RunState := stateField s.status

end Sys2Proof.Machine
end

