-- ==== Sys2Proof/Machine/Ops.lean ====
section
/-! DEFINITION. The named operations over memory and registers: one byte's read and write (spec R33, R40, R57), the register
file by number (spec R20), command issue (spec R88), and the two ways a command ends: `done` (spec R165) and `raise`, which is
"the whole of trap entry" (spec R166). There is no return from an exception (spec R171). -/

namespace Sys2Proof.Machine

/-- `MemRead(S, a, 1)`: the byte at address `a`, or none when it is undefined (R33, R40). -/
def Memory.get : Memory → Nat → Option Byte
  | [], _ => none
  | c :: m, a => if c.1 = a then some c.2 else Memory.get m a

/-- `MemWrite(S, a, 1, v)`: the byte at `a` becomes `v` and defined (R33, R40). The canonical form is kept. -/
def Memory.set : Memory → Nat → Byte → Memory
  | [], a, v => [(a, v)]
  | c :: m, a, v =>
    if a < c.1 then (a, v) :: c :: m
    else if a = c.1 then (a, v) :: m
    else c :: Memory.set m a v

/-- `MSG[j + t] <- r[t]` for each `t`, in ascending order. -/
def Memory.setBytes : Memory → Nat → List Byte → Memory
  | m, _, [] => m
  | m, j, v :: r => Memory.setBytes (Memory.set m j v) (j + 1) r

/-- The values `f i`, `f (i + 1)`, …, `f (i + n - 1)`, or none when one of them is none: the reads of a scan, of which each
must be of a defined byte (R202). -/
def collect {α : Type} (f : Nat → Option α) : Nat → Nat → Option (List α)
  | _, 0 => some []
  | i, n + 1 =>
    match f i, collect f (i + 1) n with
    | some x, some xs => some (x :: xs)
    | _, _ => none

/-- The register of a number; no other number exists (R20, R203). -/
def Reg.ofNumber : Nat → Option Reg
  | 0 => some .cmd
  | 1 => some .status
  | 2 => some .pixcnt
  | 3 => some .msglen
  | 4 => some .dpos
  | _ + 5 => none

/-- `REG.X` (R40). -/
def State.readReg (s : State) : Reg → Word
  | .cmd => s.cmd
  | .status => s.status
  | .pixcnt => s.pixcnt
  | .msglen => s.msglen
  | .dpos => s.dpos

/-- The command word `w` is latched: `REG.CMD <- w; REG.STATUS <- 0x00000001`, and nothing else changes (R88). -/
def State.issue (s : State) (w : Word) : State := { s with cmd := w, status := statusBusy }

/-- `done(dpos)`: `REG.DPOS <- dpos; REG.STATUS <- 0x00000002` (R165). -/
def State.finish (s : State) (dpos : Nat) : State :=
  { s with dpos := BitVec.ofNat 32 dpos, status := statusDone }

/-- `raise K`: `REG.DPOS <- 0; REG.STATUS <- 3 | …`, and nothing else changes (R166). -/
def State.raise (s : State) (k : Failure) : State := { s with dpos := 0#32, status := statusOfFailure k }

/-- The reset event: registers 0 and every byte undefined (R191, R192); the parameters stay, and so do the turns still to come
and what the host has already read, which are outside the block. -/
def State.powerReset (s : State) : State :=
  { State.resetOf s.cfg with turns := s.turns, replies := s.replies }

/-- A read gives `r` back to the host and changes nothing else (R81, R83, R85). -/
def State.reply (s : State) (r : Reply) : State := { s with replies := r :: s.replies }

/-- One thing after another: a next state is handed on, a refusal ends the run. -/
def andThen {α β : Type} (o : Host.Outcome α Fault Refusal) (f : α → Host.Outcome β Fault Refusal) :
    Host.Outcome β Fault Refusal :=
  match o with
  | .next a => f a
  | .fault r => .fault r
  | .refused r => .refused r

/-- The turn at the head of the schedule is used up. -/
def State.afterTurn (s : State) (rest : List Turn) : State := { s with turns := rest }

end Sys2Proof.Machine
end

