-- ==== Sys2Proof/Machine/Channel.lean ====
section
/-! DEFINITION. The channel-position multiplexer and the LSB cell (spec R110 to R117): the engine's only store and load of the
PIX memory. -/

namespace Sys2Proof.Machine

/-- `PixelOf(i) = i div 3` (R110). -/
def pixelOf (i : Nat) : Nat := i / 3

/-- `ChanOf(i) = i mod 3` (R110). -/
def chanOf (i : Nat) : Nat := i % 3

/-- `AddrOf(i) = 4 * (i div 3) + (i mod 3)`: the PIX address of payload bit `i` (R110). -/
def addrOf (i : Nat) : Nat := 4 * pixelOf i + chanOf i

/-- `IndexOf(a)`: the payload bit index of an address, none for an alpha byte (R111). -/
def indexOf (a : Nat) : Option Nat := if a % 4 = 3 then none else some (3 * (a / 4) + a % 4)

/-- `(old & 0xFE) | b` (R112). -/
def withLSB (old : Byte) (b : Bool) : Byte := (old &&& 0xFE#8) ||| BitVec.ofNat 8 b.toNat

/-- `InsertLSB(a, b)`: read-modify-write of one channel byte; none when the byte is undefined (R112, R202). -/
def insertLSB (m : Memory) (a : Nat) (b : Bool) : Option Memory :=
  (m.get a).map fun old => m.set a (withLSB old b)

/-- `ExtractLSB(a)`: `bit(PIX[a], 0)`; none when the byte is undefined (R113, R202). -/
def extractLSB (m : Memory) (a : Nat) : Option Bool := (m.get a).map fun v => v.getLsbD 0

/-- `InsertLSB(AddrOf(i + t), B[t])` for each bit `B[t]` of a frame's rest, in ascending index (R116, R120, R122). -/
def insertBits : Memory → Nat → List Bool → Option Memory
  | m, _, [] => some m
  | m, i, b :: bs =>
    match insertLSB m (addrOf i) b with
    | some m' => insertBits m' (i + 1) bs
    | none => none

/-- `LsbStream(N)`: `S[i] = ExtractLSB(AddrOf(i))` for `0 <= i < 3*N`; none when one of these bytes is undefined (R115,
R141, R202). -/
def lsbStream (m : Memory) (n : Nat) : Option (List Bool) :=
  collect (fun i => extractLSB m (addrOf i)) 0 (3 * n)

end Sys2Proof.Machine
end

