-- ==== Sys2Proof/Machine/Operands.lean ====
section
/-! DEFINITION. The operands of the commands (spec R30, R73): the two counts, the message and the LSB stream. They are the only
operand forms; no command word has a field for one. -/

namespace Sys2Proof.Machine

/-- `N`, the value of PIXCNT (R27, R40). -/
abbrev State.pixelCount (s : State) : Nat := s.pixcnt.toNat

/-- `L`, the value of MSGLEN (R28, R40). -/
abbrev State.messageLength (s : State) : Nat := s.msglen.toNat

/-- `m = [ MemRead(MSG, j, 1) for j = 0 .. L-1 ]`, none when one of these bytes is undefined (R120, R202). -/
def State.message (s : State) : Option (List Byte) := collect s.msg.get 0 s.messageLength

/-- `S = LsbStream(N)`, none when one of its bytes is undefined (R140, R202). -/
def State.stream (s : State) : Option (List Bool) := lsbStream s.pix s.pixelCount

/-- ENCODE's operand range: `N > PIXMAX or L > MSGMAX` is out of range (R78). -/
def State.encodeInRange (s : State) : Bool :=
  decide (s.pixelCount ≤ s.cfg.pixMax) && decide (s.messageLength ≤ s.cfg.msgMax)

/-- DECODE's operand range: `N > PIXMAX` is out of range; MSGLEN is not looked at (R78, R149). -/
def State.decodeInRange (s : State) : Bool := decide (s.pixelCount ≤ s.cfg.pixMax)

end Sys2Proof.Machine
end

