-- ==== Sys2Proof/Machine/Serializer.lean ====
section
/-! DEFINITION. The serializer: message bytes to bits, most-significant bit first, the delimiter, and back (spec R90 to R98,
R142). A bit sequence is a list of Booleans, index 0 first (spec R40). -/

namespace Sys2Proof.Machine

/-- `ByteBits(b)`: `s[t] = bit(b, 7 - t)` for `t = 0 .. 7` (R90). -/
def byteBits (b : Byte) : List Bool := (List.range 8).map fun t => b.getLsbD (7 - t)

/-- `ToBits(m)`: the bits of the bytes, first byte first (R91). -/
def toBits : List Byte → List Bool
  | [] => []
  | b :: m => byteBits b ++ toBits m

/-- `DELIM`: fifteen 1 bits, then one 0 bit (R92). -/
def delim : List Bool := List.replicate 15 true ++ [false]

/-- `Frame(m) = ToBits(m) ++ DELIM` (R93). -/
def frame (m : List Byte) : List Bool := toBits m ++ delim

/-- The byte whose bits, most-significant first, are the first eight of `s`: the sum over `t` of `s[t] * 2^(7 - t)` (R95). -/
def byteOfBits (s : List Bool) : Byte :=
  BitVec.ofNat 8 ((s.take 8).foldl (fun acc b => 2 * acc + b.toNat) 0)

/-- `FromBits(s)`: byte `j` is made of bits `8*j` to `8*j + 7`; the last `k mod 8` bits take no part (R95). -/
def fromBits (s : List Bool) : List Byte :=
  (List.range (s.length / 8)).map fun j => byteOfBits (s.drop (8 * j))

/-- `FindDelim(S)`: the least offset at which `DELIM` stands, every bit offset being a candidate (R142). -/
def findDelim : List Bool → Option Nat
  | [] => none
  | b :: s => if (b :: s).take 16 = delim then some 0 else (findDelim s).map (· + 1)

end Sys2Proof.Machine
end

