-- ==== Sys2Proof/Machine/DecodeCommand.lean ====
section
/-! DEFINITION. The meaning of DECODE (spec R140 to R156), R140's pseudocode line by line. -/

namespace Sys2Proof.Machine

/-- DECODE's success with the delimiter found at `k` in the stream `bits`: the whole bytes before it go to MSG, MSGLEN gets
their number, DPOS gets `k` (R140, R146, R147). -/
def deliverMessage (s : State) (bits : List Bool) (k : Nat) : State :=
  { s with msg := s.msg.setBytes 0 (fromBits (bits.take k)), msglen := BitVec.ofNat 32 (k / 8) }.finish k

/-- DECODE's end for a collected stream: the first delimiter decides (R142, R143, R145). -/
def endDecode (s : State) (bits : List Bool) : State :=
  match findDelim bits with
  | none => s.raise .noHiddenMessage
  | some k =>
    if s.cfg.strictK8 = true ∧ k % 8 ≠ 0 then s.raise .noHiddenMessage else deliverMessage s bits k

/-- DECODE (R140): operand range, then the whole stream is collected (R141), searched and delivered. Refused when a byte it
would read is undefined (R202). -/
def execDecode (s : State) : Host.Outcome State Fault Refusal :=
  if s.decodeInRange = false then .next (s.raise .illegalCommand)
  else
    match s.stream with
    | none => .refused (.undefinedByte .pix)
    | some bits => .next (endDecode s bits)

end Sys2Proof.Machine
end

