-- ==== Sys2Proof/Machine/Capacity.lean ====
section
/-! DEFINITION. The capacity validator (spec R100 to R106). Exact arithmetic on natural numbers, no wrap (spec R103). -/

namespace Sys2Proof.Machine

/-- `Capacity(N) = 3 * N`: usable bits of `N` pixels (R100). -/
def capacity (n : Nat) : Nat := 3 * n

/-- `Required(L) = 8 * L + 16`: bits ENCODE places for `L` bytes (R101). -/
def required (l : Nat) : Nat := 8 * l + 16

/-- `CapOK(N, L)`: `Required(L) <= Capacity(N)` (R102). -/
def capOK (n l : Nat) : Bool := decide (required l ≤ capacity n)

/-- `Nmin(L)`: the least pixel count that fits `L >= 1` bytes (R105). -/
def nMin (l : Nat) : Nat := (8 * l + 16 + 2) / 3

/-- `Lmax(N)`: the greatest message length that fits `N` pixels, when `3*N >= 16` (R105). -/
def lMax (n : Nat) : Nat := (3 * n - 16) / 8

end Sys2Proof.Machine
end

