-- ==== Sys2Proof/Machine/EncodeCommand.lean ====
section
/-! DEFINITION. The meaning of ENCODE (spec R120 to R131), R120's pseudocode line by line. -/

namespace Sys2Proof.Machine

/-- The scan of ENCODE: read the message, place its frame, end with success at delimiter offset `8*L` (R120, R122, R126).
Refused when a byte it would read is undefined (R202). -/
def placeMessage (s : State) : Host.Outcome State Fault Refusal :=
  match s.message with
  | none => .refused (.undefinedByte .msg)
  | some m =>
    match insertBits s.pix 0 (frame m) with
    | none => .refused (.undefinedByte .pix)
    | some pix => .next ({ s with pix := pix }.finish (8 * s.messageLength))

/-- ENCODE (R120): operand range, emptiness, capacity, in this order (R121), then the scan. -/
def execEncode (s : State) : Host.Outcome State Fault Refusal :=
  if s.encodeInRange = false then .next (s.raise .illegalCommand)
  else if s.pixelCount = 0 ∨ s.messageLength = 0 then
    .next (s.raise (.emptyInput (decide (s.pixelCount = 0)) (decide (s.messageLength = 0))))
  else if capOK s.pixelCount s.messageLength = false then .next (s.raise .capacityExceeded)
  else placeMessage s

end Sys2Proof.Machine
end

