-- ==== Sys2Proof/Machine/Engine.lean ====
section
/-! DEFINITION. The engine's step: it decodes the word held in CMD at the step (spec R74) and performs the command, or ends a
reserved word in IllegalCommand (spec R75, R164). -/

namespace Sys2Proof.Machine

/-- A reserved word's command: `raise IllegalCommand()` and nothing else (R75, R164). -/
def performReserved (s : State) : Host.Outcome State Fault Refusal := .next (s.raise .illegalCommand)

/-- The engine performs the command held in CMD (R65, R74, R88). Called while STATE is BUSY. -/
def engineStep (s : State) : Host.Outcome State Fault Refusal :=
  match decodeCmd s.cmd with
  | .ok i => exec i s
  | .error _ => performReserved s

end Sys2Proof.Machine
end

