-- ==== Sys2Proof/Machine/HostPort.lean ====
section
/-! DEFINITION. The host's transactions (spec R80 to R86), each one step of the host agent, with every attempt the spec gives
no meaning refused by name (spec R200 to R206). -/

namespace Sys2Proof.Machine

/-- A transaction that needs the block not to be BUSY: refused while it is (R200), else the state given. -/
def State.unlessBusy (s : State) (t : Host.Outcome State Fault Refusal) : Host.Outcome State Fault Refusal :=
  if s.runState = .busy then .refused .accessWhileBusy else t

/-- `WR CMD, w`: the issue of a command (R88); refused while BUSY (R201). -/
def hostWrCmd (w : Word) (s : State) : Host.Outcome State Fault Refusal :=
  if s.runState = .busy then .refused .issueWhileBusy else .next (s.issue w)

/-- `WR reg, v` (R80): PIXCNT and MSGLEN take any value as written (R27, R28); STATUS and DPOS are refused (R204), and so is
a number above 4 (R203). -/
def hostWr (number : Nat) (v : Word) (s : State) : Host.Outcome State Fault Refusal :=
  match Reg.ofNumber number with
  | some .cmd => hostWrCmd v s
  | some .status => .refused (.readOnlyRegister .status)
  | some .pixcnt => s.unlessBusy (.next { s with pixcnt := v })
  | some .msglen => s.unlessBusy (.next { s with msglen := v })
  | some .dpos => .refused (.readOnlyRegister .dpos)
  | none => .refused (.noSuchRegister number)

/-- `RD reg` (R81): STATUS at any time, the others only when not BUSY (R200); a number above 4 is refused (R203). -/
def hostRd (number : Nat) (s : State) : Host.Outcome State Fault Refusal :=
  match Reg.ofNumber number with
  | some .status => .next (s.reply (.word s.status))
  | some r => s.unlessBusy (.next (s.reply (.word (s.readReg r))))
  | none => .refused (.noSuchRegister number)

/-- `WRPIX a, v` (R82). -/
def hostWrPix (a : Nat) (v : Byte) (s : State) : Host.Outcome State Fault Refusal :=
  s.unlessBusy <|
    if a < 4 * s.cfg.pixMax then .next { s with pix := s.pix.set a v } else .refused (.outOfRange .pix a)

/-- `WRMSG j, v` (R84). -/
def hostWrMsg (j : Nat) (v : Byte) (s : State) : Host.Outcome State Fault Refusal :=
  s.unlessBusy <|
    if j < s.cfg.msgMax then .next { s with msg := s.msg.set j v } else .refused (.outOfRange .msg j)

/-- The host gets the byte a read found; an undefined byte is refused (R202). -/
def State.replyByte (s : State) (space : Space) : Option Byte → Host.Outcome State Fault Refusal
  | some v => .next (s.reply (.byte v))
  | none => .refused (.undefinedByte space)

/-- `RDPIX a` (R83). -/
def hostRdPix (a : Nat) (s : State) : Host.Outcome State Fault Refusal :=
  s.unlessBusy <|
    if a < 4 * s.cfg.pixMax then s.replyByte .pix (s.pix.get a) else .refused (.outOfRange .pix a)

/-- `RDMSG j` (R85). -/
def hostRdMsg (j : Nat) (s : State) : Host.Outcome State Fault Refusal :=
  s.unlessBusy <|
    if j < s.cfg.msgMax then s.replyByte .msg (s.msg.get j) else .refused (.outOfRange .msg j)

/-- The last read of a `POLL`: it yields STATUS (R86). -/
def hostPoll (s : State) : Host.Outcome State Fault Refusal := .next (s.reply (.word s.status))

/-- An access of another width is refused in every state (R206). -/
def hostOdd (x : OddAccess) (_ : State) : Host.Outcome State Fault Refusal := .refused (.oddAccess x)

/-- One host transaction. -/
def hostAct (x : Transaction) (s : State) : Host.Outcome State Fault Refusal :=
  match x with
  | .wr n v => hostWr n v s
  | .rd n => hostRd n s
  | .wrPix a v => hostWrPix a v s
  | .rdPix a => hostRdPix a s
  | .wrMsg j v => hostWrMsg j v s
  | .rdMsg j => hostRdMsg j s
  | .poll => hostPoll s
  | .odd x => hostOdd x s

end Sys2Proof.Machine
end

