-- ==== Sys2Proof/Machine/Turns.lean ====
section
/-! DEFINITION. Whose step it is (spec R12, R63, R210; log 2): the head of `turns` acts; when nothing is scheduled, a BUSY
engine acts, and a block that is not BUSY stays as it is. -/

namespace Sys2Proof.Machine

/-- The engine's turn: it performs the latched command while BUSY, and does nothing otherwise (R63, R181). -/
def engineTurn (s : State) : Host.Outcome State Fault Refusal :=
  if s.runState = .busy then engineStep s else .next s

/-- The platform's turn: reset, in any state (R190). -/
def resetTurn (s : State) : Host.Outcome State Fault Refusal := .next s.powerReset

/-- A host transaction while STATE is BUSY, `rest` being the turns after it. A command that would read an undefined byte "has no
meaning from its issue on" (R202), so not even `RD STATUS` is answered while one is latched (log 5). `POLL` reads STATUS until
it is not BUSY (R86): its BUSY reads change nothing, so the engine moves and the `POLL` stays at the head (log 2). -/
def hostTurnBusy (x : Transaction) (rest : List Turn) (s : State) : Host.Outcome State Fault Refusal :=
  match engineStep s with
  | .fault f => .fault f
  | .refused r => .refused r
  | .next t => if x = .poll then .next t else hostAct x (s.afterTurn rest)

/-- The host's turn. -/
def hostTurn (x : Transaction) (rest : List Turn) (s : State) : Host.Outcome State Fault Refusal :=
  if s.runState = .busy then hostTurnBusy x rest s else hostAct x (s.afterTurn rest)

/-- The next turn is taken (R63: one total order of host transactions, engine steps and resets). -/
def takeTurn (s : State) : Host.Outcome State Fault Refusal :=
  match s.turns with
  | [] => engineTurn s
  | .engine :: rest => engineTurn (s.afterTurn rest)
  | .host x :: rest => hostTurn x rest s
  | .reset :: rest => resetTurn (s.afterTurn rest)

/-- The command word `w` is latched and the engine's turn comes next: what `WR CMD, w` (R88) and the engine's first chance to
move amount to. Nothing else changes. -/
def latchCommand (s : State) (w : Word) : State := { s.issue w with turns := .engine :: s.turns }

end Sys2Proof.Machine
end

