-- ==== Sys2Proof/Machine/Step.lean ====
section
/-! DEFINITION. One step of the machine. LSBPACK has no program counter and fetches no instruction (spec R35, R65): the word
the engine performs is the one in CMD. -/

namespace Sys2Proof.Machine

/-- One step: the next turn is taken (Machine/Turns.lean). -/
def step (s : State) : Host.Outcome State Fault Refusal := takeTurn s

/-- The state whose next step performs the command word `w`, of `nbits` bits: the word stands in CMD, STATE is BUSY, and the
engine's turn is next (log 8). -/
def State.withFetchWord (s : State) (nbits w : Nat) : State := latchCommand s (BitVec.ofNat 32 (w % 2 ^ nbits))

end Sys2Proof.Machine
end

