-- ==== Sys2Proof/Machine/HostProgram.lean ====
section
/-! DEFINITION. The host's side of a call (spec R89, R11): the host makes its transactions one after the other, each by steps of
the machine; the pseudo-instructions `Encode(px, m)` and `Decode(px)` are made of them, and go on by the STATUS the `POLL` gave.
The character mapping is the host's too (spec R5(c), R11). -/

namespace Sys2Proof.Machine

/-! ### Making transactions -/

/-- The host's transaction `x` comes next, before what is scheduled already. -/
def State.schedule (s : State) (x : Transaction) : State := { s with turns := .host x :: s.turns }

/-- The host makes the transaction `x`: one step, and before it, for a `POLL` made while BUSY, the step in which the engine
performs the command (R86; log 2, log 15). -/
def makeTransaction (x : Transaction) (s : State) : Host.Outcome State Fault Refusal :=
  if x = .poll ∧ s.runState = .busy then andThen (step (s.schedule x)) step else step (s.schedule x)

/-- The host makes the transactions `xs` in their order (R63). -/
def makeTransactions : List Transaction → State → Host.Outcome State Fault Refusal
  | [], s => .next s
  | x :: xs, s => andThen (makeTransaction x s) (makeTransactions xs)

/-- The 32-bit value the host read last, if its last read was of a register (R81, R86). -/
def State.lastWord (s : State) : Option Word :=
  match s.replies with
  | .word w :: _ => some w
  | .byte _ :: _ => none
  | [] => none

/-- The byte a reply holds, if it is one (R83, R85). -/
def Reply.byteValue : Reply → Option Byte
  | .byte v => some v
  | .word _ => none

/-- The bytes among the last `n` values the host read, oldest first (R83, R85). -/
def State.lastBytes (s : State) (n : Nat) : List Byte := (s.replies.take n).reverse.filterMap Reply.byteValue

/-! ### The transactions of a call (R89) -/

/-- `WRPIX a, px[a]` for each `a` from `a` on (R89). -/
def writePixels : Nat → List Byte → List Transaction
  | _, [] => []
  | a, v :: px => .wrPix a v :: writePixels (a + 1) px

/-- `WRMSG j, m[j]` for each `j` from `j` on (R89). -/
def writeMessage : Nat → List Byte → List Transaction
  | _, [] => []
  | j, v :: m => .wrMsg j v :: writeMessage (j + 1) m

/-- `RDPIX a` for `a = 0 .. 4*N-1` (R89). -/
def readPixels (n : Nat) : List Transaction := (List.range (4 * n)).map .rdPix

/-- `RDMSG j` for `j = 0 .. L'-1` (R89). -/
def readMessage (l : Nat) : List Transaction := (List.range l).map .rdMsg

/-- What `Encode(px, m)` writes before `WR CMD`, in the order R89 lists it; "the order … among themselves is free". -/
def encodeWrites (px m : List Byte) : List Transaction :=
  writePixels 0 px ++ writeMessage 0 m ++ [.wr 2 (BitVec.ofNat 32 (px.length / 4)), .wr 3 (BitVec.ofNat 32 m.length)]

/-- What `Decode(px)` writes before `WR CMD`, in the order R89 lists it. -/
def decodeWrites (px : List Byte) : List Transaction := writePixels 0 px ++ [.wr 2 (BitVec.ofNat 32 (px.length / 4))]

/-- `WR CMD` with a command's word, then `POLL` (R89). -/
def issueAndPoll (i : Instr) : List Transaction := [.wr 0 (encode i), .poll]

/-! ### What a call gives (R89) -/

/-- What a call gives the host (R89, R19). -/
inductive CallResult where
  /-- `pixels'`: Encode's polled STATE was DONE. -/
  | pixels (px : List Byte)
  /-- The message: Decode's polled STATE was DONE. -/
  | message (m : List Byte)
  /-- The polled STATE was ERROR, and STATUS.ERR named this failure. -/
  | failed (k : Failure)
  /-- The host did not read a STATUS with STATE DONE, or with STATE ERROR and a failure's number; R89 gives a call no result
  then, and no call comes to it (log 15). -/
  | noResult
deriving DecidableEq, Repr

/-- The end of a call: the machine's state and what the host was given. -/
structure Returned where
  /-- The state after the call's last transaction. -/
  state : State
  /-- What the call gave. -/
  result : CallResult
deriving DecidableEq, Repr

/-- The polled STATUS is ERROR: "the failure is the one named by STATUS.ERR" (R89). -/
def nameFailure (w : Word) : CallResult :=
  match failureNamed w with
  | some k => .failed k
  | none => .noResult

/-- A call after its `POLL`: on DONE it goes on as `onDone` says, on ERROR it ends with the failure (R89). -/
def afterPoll (onDone : State → Host.Outcome Returned Fault Refusal) (s : State) : Host.Outcome Returned Fault Refusal :=
  match s.lastWord with
  | none => .next ⟨s, .noResult⟩
  | some w =>
    match stateField w with
    | .done => onDone s
    | .error => .next ⟨s, nameFailure w⟩
    | .idle => .next ⟨s, .noResult⟩
    | .busy => .next ⟨s, .noResult⟩

/-- Encode on DONE: "`RDPIX a` for `a = 0 .. 4*N-1` gives `pixels'`" (R89). -/
def readBackPixels (n : Nat) (s : State) : Host.Outcome Returned Fault Refusal :=
  andThen (makeTransactions (readPixels n) s) fun t => .next ⟨t, .pixels (t.lastBytes (4 * n))⟩

/-- Decode on DONE: "`RD MSGLEN` gives `L'` and `RDMSG j` for `j = 0 .. L'-1` gives the message" (R89). -/
def readBackMessage (s : State) : Host.Outcome Returned Fault Refusal :=
  andThen (makeTransaction (.rd 3) s) fun t =>
    match t.lastWord with
    | none => .next ⟨t, .noResult⟩
    | some l => andThen (makeTransactions (readMessage l.toNat) t) fun u => .next ⟨u, .message (u.lastBytes l.toNat)⟩

/-! ### The pseudo-instructions (R89) -/

/-- Encode of `n` pixels, its writes made in the order `ws`. -/
def encodeCallBy (ws : List Transaction) (n : Nat) (s : State) : Host.Outcome Returned Fault Refusal :=
  andThen (makeTransactions (ws ++ issueAndPoll .encode) s) (afterPoll (readBackPixels n))

/-- Decode, its writes made in the order `ws`. -/
def decodeCallBy (ws : List Transaction) (s : State) : Host.Outcome Returned Fault Refusal :=
  andThen (makeTransactions (ws ++ issueAndPoll .decode) s) (afterPoll readBackMessage)

/-- `Encode(px, m)` (R89). -/
def encodeCall (px m : List Byte) (s : State) : Host.Outcome Returned Fault Refusal :=
  encodeCallBy (encodeWrites px m) (px.length / 4) s

/-- `Decode(px)` (R89). -/
def decodeCall (px : List Byte) (s : State) : Host.Outcome Returned Fault Refusal := decodeCallBy (decodeWrites px) s

/-- Decode of the `n` pixels already in PIX, which "need not be written again" (R89). -/
def decodeCallInPlace (n : Nat) (s : State) : Host.Outcome Returned Fault Refusal :=
  decodeCallBy [.wr 2 (BitVec.ofNat 32 n)] s

/-! ### Characters (R11) -/

/-- `CharToByte(cp)`: the identity up to 255. Above 255 the mapping is open; "this spec directs a model to refuse such a
message at the host boundary" (R11), so there is none (log 6). -/
def charToByte (cp : Nat) : Option Byte := if cp ≤ 255 then some (BitVec.ofNat 8 cp) else none

/-- `ByteToChar(b)`: the code point of the character (R11). -/
def byteToChar (b : Byte) : Nat := b.toNat

/-- The message bytes of a text given by its code points, none when one is above 255 (R11, R196). -/
def textToMessage : List Nat → Option (List Byte)
  | [] => some []
  | cp :: text =>
    match charToByte cp, textToMessage text with
    | some b, some m => some (b :: m)
    | _, _ => none

end Sys2Proof.Machine
end

