-- ==== Sys2Proof/Safety.lean ====
section
/-! DEFINITION. The terms statements are made in: which bytes a command reads and whether they are defined (spec R68, R195,
R196, R202), where the delimiter stands in a bit sequence (spec R142), the invariant of every reachable state (spec R39), and
reachability. -/

namespace Sys2Proof

namespace Machine

/-- The message bytes `MSG[0..l)` are defined and are `m` (R73, R196). -/
abbrev MessageIs (mem : Memory) (m : List Byte) : Prop := ∀ j < m.length, mem.get j = m[j]?

/-- `MSG[0..l)` is defined (R196). -/
abbrev MessageDefined (mem : Memory) (l : Nat) : Prop := ∀ j < l, (mem.get j).isSome = true

/-- The PIX bytes at `AddrOf(0)` to `AddrOf(t - 1)` are defined (R195, R202). -/
abbrev PayloadDefined (mem : Memory) (t : Nat) : Prop := ∀ i < t, (mem.get (addrOf i)).isSome = true

/-- `S` is the LSB stream of the first `S.length` payload channel bytes, all of them defined (R115). -/
abbrev StreamIs (mem : Memory) (S : List Bool) : Prop := ∀ i < S.length, extractLSB mem (addrOf i) = S[i]?

/-- The delimiter stands in `S` at offset `k`: fifteen 1 bits, then a 0 bit (R92, R142). -/
abbrev DelimAt (S : List Bool) (k : Nat) : Prop := (∀ t < 15, S[k + t]? = some true) ∧ S[k + 15]? = some false

/-- `k` is the offset of the first delimiter of `S` (R142). -/
abbrev FirstDelimAt (S : List Bool) (k : Nat) : Prop := DelimAt S k ∧ ∀ j < k, ¬ DelimAt S j

/-- The three tests of ENCODE are passed (R120, R121). -/
abbrev EncodeAccepts (s : State) : Prop :=
  s.pixelCount ≤ s.cfg.pixMax ∧ s.messageLength ≤ s.cfg.msgMax ∧ s.pixelCount ≠ 0 ∧ s.messageLength ≠ 0 ∧
    8 * s.messageLength + 16 ≤ 3 * s.pixelCount

/-- Every byte the command would read is defined: the host has met its duties (R195, R196, R202). A command that ends before
reading any memory reads none. -/
abbrev BytesReady (i : Instr) (s : State) : Prop :=
  match i with
  | .encode =>
    EncodeAccepts s → MessageDefined s.msg s.messageLength ∧ PayloadDefined s.pix (8 * s.messageLength + 16)
  | .decode => s.pixelCount ≤ s.cfg.pixMax → PayloadDefined s.pix (3 * s.pixelCount)

/-- The command held in CMD has a meaning: it is reserved (R75), or every byte it would read is defined (R202). -/
abbrev CommandReady (s : State) : Prop := ∀ i, decodeCmd s.cmd = .ok i → BytesReady i s

/-- Every listed address is below `bound` (R59). -/
abbrev Memory.Below (mem : Memory) (bound : Nat) : Prop := ∀ c ∈ mem, c.1 < bound

/-- The invariant of the machine (R39, R26, R59, R9): valid parameters; STATUS one of its nine values; DPOS 0 while STATE is IDLE
or ERROR; CMD 0 while STATE is IDLE (R21, R23); both memories in canonical form and inside their ranges. -/
structure Inv (s : State) : Prop where
  cfg_valid : s.cfg.Valid
  status_value : s.status ∈ statusValues
  dpos_zero : s.runState = .idle ∨ s.runState = .error → s.dpos = 0#32
  cmd_zero : s.runState = .idle → s.cmd = 0#32
  pix_wf : s.pix.wf
  msg_wf : s.msg.wf
  pix_below : s.pix.Below (4 * s.cfg.pixMax)
  msg_below : s.msg.Below s.cfg.msgMax

/-- What ties DPOS and MSGLEN together after a success (R39): `DPOS = 8 * MSGLEN` after ENCODE, `MSGLEN = DPOS div 8` after
DECODE. -/
structure ResultTied (s : State) : Prop where
  after_encode : s.runState = .done → decodeCmd s.cmd = .ok .encode → s.dpos.toNat = 8 * s.msglen.toNat
  after_decode : s.runState = .done → decodeCmd s.cmd = .ok .decode → s.msglen.toNat = s.dpos.toNat / 8

/-- The step from `s` answers what the engine's performance of the latched command answers, in whichever of the three ways the
engine gets to move: nothing is scheduled, its turn is scheduled and is used up, or the host polls (R12, R86; log 2). -/
def EnginePerforms (s t : State) : Prop :=
  s.runState = .busy ∧
    ((s.turns = [] ∧ engineStep s = .next t) ∨
     (∃ rest, s.turns = .engine :: rest ∧ engineStep { s with turns := rest } = .next t) ∨
     (∃ rest, s.turns = .host .poll :: rest ∧ engineStep s = .next t))

/-- `k` steps, each answering a next state, lead from `s` to `t`. -/
def StepsTo : Nat → State → State → Prop
  | 0, s, t => s = t
  | k + 1, s, t => ∃ u, step s = .next u ∧ StepsTo k u t

/-- `s` is the state after some number of steps from reset, for some valid parameters and some schedule of turns: what the
host and the platform do, in any order (R63, R194). -/
def Reachable (s : State) : Prop :=
  ∃ (c : Config) (turns : List Turn) (k : Nat), c.Valid ∧ StepsTo k { State.resetOf c with turns := turns } s

end Machine

end Sys2Proof
end

