-- ==== Sys2Proof/Certificates/Slice0/Obligations.lean ====
section
/-! DEFINITION. The statements for the provers, grouped by file of spec/. Each holds for every state and for every valid or
invalid value of the parameters unless it says otherwise; none rests on `Config.reference` (log 1) or on `State.reset`'s
schedule (log 2). -/

open Sys2Proof Sys2Proof.Machine

/-! ### Reset (10_state.md, 70_reset_and_hazards.md) -/

/-- R38, R191: after reset the five registers are 0, STATE is IDLE and ERR None with EI and EM 0, and every byte of PIX and
MSG is undefined, for any parameters. -/
def Obligations.ResetClearsRegistersAndForgetsBytes : Prop :=
  ∀ c : Config,
    (State.resetOf c).cmd = 0x00000000#32 ∧ (State.resetOf c).status = 0x00000000#32 ∧
    (State.resetOf c).pixcnt = 0x00000000#32 ∧ (State.resetOf c).msglen = 0x00000000#32 ∧
    (State.resetOf c).dpos = 0x00000000#32 ∧
    (State.resetOf c).runState = .idle ∧ errField (State.resetOf c).status = 0#3 ∧
    eiField (State.resetOf c).status = false ∧ emField (State.resetOf c).status = false ∧
    (∀ a, (State.resetOf c).pix.get a = none) ∧ (∀ j, (State.resetOf c).msg.get j = none)

/-- R190 to R193: reset may come in any state, BUSY included; the next state is the reset state, whatever command was latched
and whatever the bytes held. R190 to R193 say nothing of the parameters, the turns still to come and the host's replies: that
these stay is the model's choice (log 14). -/
def Obligations.ResetComesInAnyState : Prop :=
  ∀ (s : State) (rest : List Turn), s.turns = .reset :: rest →
    step s = .next { State.resetOf s.cfg with turns := rest, replies := s.replies }

/-! ### The command word (30_encoding.md) -/

/-- R72, R75 and the vectors V6.9 to V6.13: a few words and what they decode to. A sanity statement. -/
def Obligations.SampleWordsDecode : Prop :=
  decodeCmd 0b00000000000000000000000000000001#32 = .ok .encode ∧
  decodeCmd 0b00000000000000000000000000000010#32 = .ok .decode ∧
  decodeCmd 0x00000000#32 = .error (.reservedOp 0#4) ∧
  decodeCmd 0x00000003#32 = .error (.reservedOp 3#4) ∧
  decodeCmd 0x00000011#32 = .error (.zeroFieldNotZero 1#28) ∧
  decodeCmd 0x80000002#32 = .error (.zeroFieldNotZero 0x8000000#28) ∧
  decodeCmd 0xFFFFFFFF#32 = .error (.reservedOp 15#4)

/-- R72: 0x00000001 is ENCODE, 0x00000002 is DECODE, and every other word is reserved. -/
def Obligations.DecoderAcceptsExactlyTwoWords : Prop :=
  ∀ w : Word,
    (w = 0x00000001#32 → decodeCmd w = .ok .encode) ∧ (w = 0x00000002#32 → decodeCmd w = .ok .decode) ∧
    (w ≠ 0x00000001#32 → w ≠ 0x00000002#32 → ∃ e, decodeCmd w = .error e)

/-- Decode and encode agree in both directions: a word decodes to a command exactly when it is that command's encoding (R70 to
R73). -/
def Obligations.DecodeAndEncodeAgree : Prop :=
  ∀ (w : Word) (i : Instr), decodeCmd w = .ok i ↔ w = encode i

/-- R75, R164: a reserved word's command ends in IllegalCommand; STATUS becomes 0x00000013, DPOS 0, and nothing else changes. It
needs no byte to be defined. -/
def Obligations.ReservedWordEndsInIllegalCommand : Prop :=
  ∀ s : State, s.cmd ≠ 0x00000001#32 → s.cmd ≠ 0x00000002#32 →
    engineStep s = .next { s with dpos := 0#32, status := 0x00000013#32 }

/-- R78: an operand out of range ends ENCODE (`N > PIXMAX` or `L > MSGMAX`) and DECODE (`N > PIXMAX`) in IllegalCommand before
anything else, with no byte read and nothing but STATUS and DPOS changed; with the operands in range neither command does,
DECODE whatever MSGLEN holds. -/
def Obligations.OperandOutOfRangeIsIllegal : Prop :=
  ∀ s : State,
    (s.cfg.pixMax < s.pixcnt.toNat ∨ s.cfg.msgMax < s.msglen.toNat →
      exec .encode s = .next { s with dpos := 0#32, status := 0x00000013#32 }) ∧
    (s.pixcnt.toNat ≤ s.cfg.pixMax → s.msglen.toNat ≤ s.cfg.msgMax →
      ∀ t, exec .encode s = .next t → errField t.status ≠ 4#3) ∧
    (s.cfg.pixMax < s.pixcnt.toNat →
      exec .decode s = .next { s with dpos := 0#32, status := 0x00000013#32 }) ∧
    (s.pixcnt.toNat ≤ s.cfg.pixMax → ∀ t, exec .decode s = .next t → errField t.status ≠ 4#3)

/-! ### Steps and the host's transactions (30_encoding.md, 70_reset_and_hazards.md) -/

/-- A step runs the decoded command (R65, R74, R88): in a BUSY state whose CMD decodes to `i`, the step of the engine is `exec
i`, when nothing is scheduled, when the engine's turn is scheduled (which is used up), and when the host polls (R86; the poll
stays). Which agent moves is the model's schedule (log 2). -/
def Obligations.BusyStepPerformsTheHeldCommand : Prop :=
  ∀ (s : State) (i : Instr), s.runState = .busy → decodeCmd s.cmd = .ok i →
    (s.turns = [] → step s = exec i s) ∧
    (∀ rest, s.turns = .engine :: rest → step s = exec i { s with turns := rest }) ∧
    (∀ rest, s.turns = .host .poll :: rest → step s = exec i s)

/-- R63, R181: a block that is not BUSY performs nothing by itself: with nothing scheduled the state stays as it is, and an
engine's turn is used up with no effect. That such a step leaves the state alone is the model's form (log 2). -/
def Obligations.IdleEngineDoesNothing : Prop :=
  ∀ s : State, s.runState ≠ .busy →
    (s.turns = [] → step s = .next s) ∧
    (∀ rest, s.turns = .engine :: rest → step s = .next { s with turns := rest })

/-- R88: `WR CMD, w` while STATE is not BUSY latches the word and sets STATUS to BUSY, and changes nothing else: the result of
the previous command is overwritten; from the state it leaves, the engine's step is the performance of the command held in CMD,
IllegalCommand for a reserved word. The host's transaction stands at the head of the schedule and is used up (log 2). -/
def Obligations.WritingCmdIssuesTheCommand : Prop :=
  ∀ (s : State) (w : Word) (rest : List Turn), s.runState ≠ .busy → s.turns = .host (.wr 0 w) :: rest →
    ∃ t, step s = .next t ∧ t = { s with cmd := w, status := 0x00000001#32, turns := rest } ∧
      t.runState = .busy ∧ errField t.status = 0#3 ∧ eiField t.status = false ∧ emField t.status = false ∧
      (∀ i, decodeCmd w = .ok i → engineStep t = exec i t) ∧
      (∀ e, decodeCmd w = .error e → engineStep t = .next { t with dpos := 0#32, status := 0x00000013#32 })

/-- R80: `WR` to PIXCNT and MSGLEN holds the value as written and changes nothing else; to STATUS or DPOS, to a number above 4,
or of anything while BUSY it has no meaning and is refused. -/
def Obligations.RegisterWriteTransactions : Prop :=
  ∀ (s : State) (n : Nat) (v : Word) (rest : List Turn), s.turns = .host (.wr n v) :: rest →
    (s.runState ≠ .busy → n = 0 → step s = .next { s with cmd := v, status := 0x00000001#32, turns := rest }) ∧
    (s.runState ≠ .busy → n = 2 → step s = .next { s with pixcnt := v, turns := rest }) ∧
    (s.runState ≠ .busy → n = 3 → step s = .next { s with msglen := v, turns := rest }) ∧
    (n = 1 ∨ n = 4 ∨ 5 ≤ n → ∃ r, step s = .refused r) ∧
    (s.runState = .busy → ∃ r, step s = .refused r)

/-- R81: `RD` gives the register's value and changes nothing: STATUS in every state, the others while STATE is not BUSY. While
BUSY STATUS is read only if the latched command has a meaning, because R202 gives a command that would read an undefined byte
none "from its issue on"; that reading is the model's (log 5). -/
def Obligations.RegisterReadTransactions : Prop :=
  ∀ (s : State) (n : Nat) (rest : List Turn), s.turns = .host (.rd n) :: rest →
    (s.runState ≠ .busy → n = 0 → step s = .next { s with turns := rest, replies := .word s.cmd :: s.replies }) ∧
    (s.runState ≠ .busy ∨ CommandReady s → n = 1 →
      step s = .next { s with turns := rest, replies := .word s.status :: s.replies }) ∧
    (s.runState ≠ .busy → n = 2 → step s = .next { s with turns := rest, replies := .word s.pixcnt :: s.replies }) ∧
    (s.runState ≠ .busy → n = 3 → step s = .next { s with turns := rest, replies := .word s.msglen :: s.replies }) ∧
    (s.runState ≠ .busy → n = 4 → step s = .next { s with turns := rest, replies := .word s.dpos :: s.replies }) ∧
    (s.runState = .busy → n ≠ 1 → ∃ r, step s = .refused r)

/-- R82, R83: `WRPIX` makes the byte `v` and defined and changes no other byte and nothing else; `RDPIX` gives a defined byte
and changes nothing. While BUSY, beyond `4*PIXMAX`, or (a read) on an undefined byte they have no meaning and are refused. -/
def Obligations.PixelTransactions : Prop :=
  ∀ (s : State) (a : Nat) (rest : List Turn),
    (∀ v, s.turns = .host (.wrPix a v) :: rest →
      (s.runState ≠ .busy → a < 4 * s.cfg.pixMax →
        ∃ pix, step s = .next { s with pix := pix, turns := rest } ∧ pix.get a = some v ∧
          ∀ b, b ≠ a → pix.get b = s.pix.get b) ∧
      (s.runState ≠ .busy → 4 * s.cfg.pixMax ≤ a → step s = .refused (.outOfRange .pix a)) ∧
      (s.runState = .busy → ∃ r, step s = .refused r)) ∧
    (s.turns = .host (.rdPix a) :: rest →
      (∀ v, s.runState ≠ .busy → a < 4 * s.cfg.pixMax → s.pix.get a = some v →
        step s = .next { s with turns := rest, replies := .byte v :: s.replies }) ∧
      (s.runState ≠ .busy → a < 4 * s.cfg.pixMax → s.pix.get a = none → step s = .refused (.undefinedByte .pix)) ∧
      (s.runState ≠ .busy → 4 * s.cfg.pixMax ≤ a → step s = .refused (.outOfRange .pix a)) ∧
      (s.runState = .busy → ∃ r, step s = .refused r))

/-- R84, R85: `WRMSG` and `RDMSG`, as `PixelTransactions` says it of `WRPIX` and `RDPIX`, with the bound MSGMAX. -/
def Obligations.MessageTransactions : Prop :=
  ∀ (s : State) (j : Nat) (rest : List Turn),
    (∀ v, s.turns = .host (.wrMsg j v) :: rest →
      (s.runState ≠ .busy → j < s.cfg.msgMax →
        ∃ msg, step s = .next { s with msg := msg, turns := rest } ∧ msg.get j = some v ∧
          ∀ b, b ≠ j → msg.get b = s.msg.get b) ∧
      (s.runState ≠ .busy → s.cfg.msgMax ≤ j → step s = .refused (.outOfRange .msg j)) ∧
      (s.runState = .busy → ∃ r, step s = .refused r)) ∧
    (s.turns = .host (.rdMsg j) :: rest →
      (∀ v, s.runState ≠ .busy → j < s.cfg.msgMax → s.msg.get j = some v →
        step s = .next { s with turns := rest, replies := .byte v :: s.replies }) ∧
      (s.runState ≠ .busy → j < s.cfg.msgMax → s.msg.get j = none → step s = .refused (.undefinedByte .msg)) ∧
      (s.runState ≠ .busy → s.cfg.msgMax ≤ j → step s = .refused (.outOfRange .msg j)) ∧
      (s.runState = .busy → ∃ r, step s = .refused r))

/-- R200, R201: while STATE is BUSY every transaction but `RD STATUS` (and `POLL`, which is `RD STATUS` repeated) is refused;
`RD STATUS` has its meaning and returns BUSY. Two points are the model's: that `RD STATUS` needs a latched command with a meaning
is its reading of R202 against R81 (log 5), and which refusal a second issue gets is its order of names (log 12). -/
def Obligations.OnlyStatusMayBeReadWhileBusy : Prop :=
  ∀ (s : State) (x : Transaction) (rest : List Turn), s.runState = .busy → s.turns = .host x :: rest →
    (x ≠ .rd 1 → x ≠ .poll → ∃ r, step s = .refused r) ∧
    (CommandReady s → ∀ w, x = .wr 0 w → step s = .refused .issueWhileBusy) ∧
    (CommandReady s → x = .rd 1 →
      step s = .next { s with turns := rest, replies := .word s.status :: s.replies })

/-- R203, R204, R206: a transaction that is not well formed (a register number above 4, a write of STATUS or DPOS, an address
beyond its memory, another access width) is refused in every state. -/
def Obligations.IllFormedTransactionsAreRefused : Prop :=
  ∀ (s : State) (x : Transaction) (rest : List Turn), x.wellFormed s.cfg = false → s.turns = .host x :: rest →
    ∃ r, step s = .refused r

/-- R86: a `POLL` made while STATE is not BUSY (IDLE, DONE or ERROR) yields STATUS at its first read and changes nothing; one
made while BUSY lets the engine perform the command and then yields the STATUS the command ended with. That the poll's BUSY
reads take no step of their own is the model's form (log 2). -/
def Obligations.PollYieldsTheFinalStatus : Prop :=
  ∀ (s : State) (rest : List Turn), s.turns = .host .poll :: rest →
    (s.runState ≠ .busy → step s = .next { s with turns := rest, replies := .word s.status :: s.replies }) ∧
    (∀ t, s.runState = .busy → engineStep s = .next t →
      step s = .next t ∧ t.runState ≠ .busy ∧
      step t = .next { t with turns := rest, replies := .word t.status :: s.replies })

/-! ### The serializer (40_serializer.md, 44_decode.md R142) -/

/-- R96, which the spec marks as its own inference ("derived: from rule R91 and rule R95"): `FromBits` and `ToBits` are
inverse: `FromBits(ToBits(m)) = m`, and `ToBits(FromBits(s))` is `s` without its trailing partial group, so `s` itself when
its length is a multiple of 8. -/
def Obligations.SerializerIsInvertible : Prop :=
  (∀ m : List Byte, fromBits (toBits m) = m) ∧
  (∀ s : List Bool, s.length % 8 = 0 → toBits (fromBits s) = s) ∧
  (∀ s : List Bool, toBits (fromBits s) = s.take (8 * (s.length / 8)))

/-- R98, first part, which the spec marks as its own inference ("derived: from rule R92 and rule R93"): the delimiter stands
in a frame at `8*L`, at no offset from `8*L - 15` to `8*L - 1`, and so an earlier one lies wholly inside the message bits. -/
def Obligations.DelimiterDoesNotStraddle : Prop :=
  ∀ m : List Byte, DelimAt (frame m) (8 * m.length) ∧
    ∀ j < 8 * m.length, DelimAt (frame m) j ↔ (j + 16 ≤ 8 * m.length ∧ DelimAt (toBits m) j)

/-- R98, last part, which the spec marks as its own inference ("derived: from rule R92 and rule R93"): a message every byte of
which is below 0x80 holds no delimiter at any bit offset. -/
def Obligations.SevenBitMessagesHoldNoDelimiter : Prop :=
  ∀ m : List Byte, (∀ b ∈ m, b.toNat < 0x80) → ∀ j, ¬ DelimAt (toBits m) j

/-- R142: `FindDelim(S)` is the least offset `j` with `S[j .. j+16) = DELIM`, every bit offset being a candidate, and none when
there is no such offset. -/
def Obligations.FindDelimIsTheFirstMatch : Prop :=
  ∀ S : List Bool, (∀ k, findDelim S = some k ↔ FirstDelimAt S k) ∧ (findDelim S = none ↔ ∀ j, ¬ DelimAt S j)

/-! ### The capacity validator (41_capacity_validator.md) -/

/-- R105, which the spec marks as its own inference ("derived: from rule R100, rule R101 and rule R102"): the least pixel
count, the greatest message length, and when the frame fills the buffer exactly or is one bit too long. -/
def Obligations.CapacityBounds : Prop :=
  ∀ n l : Nat,
    (1 ≤ l → (capOK n l = true ↔ nMin l ≤ n)) ∧
    (16 ≤ 3 * n → (capOK n l = true ↔ l ≤ lMax n)) ∧
    (n < 8 → 1 ≤ l → capOK n l = false) ∧
    (8 * l + 16 = 3 * n ↔ l % 3 = 1 ∧ n = (8 * l + 16) / 3) ∧
    (8 * l + 16 = 3 * n + 1 ↔ l % 3 = 0 ∧ n = (8 * l + 15) / 3)

/-! ### The channel multiplexer (42_channel_mux.md) -/

/-- R110, R114, and R111, which the spec marks as its own inference ("derived: from rule R110"): `AddrOf` is strictly
increasing, never an alpha byte, `IndexOf` is its inverse on every other address, and alpha addresses have no index. -/
def Obligations.AddressOfPayloadBits : Prop :=
  (∀ i j, i < j → addrOf i < addrOf j) ∧
  (∀ a, a % 4 ≠ 3 → indexOf a = some (3 * (a / 4) + a % 4) ∧ addrOf (3 * (a / 4) + a % 4) = a) ∧
  (∀ a, a % 4 = 3 → indexOf a = none ∧ ∀ i, addrOf i ≠ a)

/-- R112, R113: `InsertLSB` of a defined byte sets bit 0, keeps bits 7:1, moves the value by at most 1 and changes no other
byte; `ExtractLSB` is bit 0; on an undefined byte neither has a meaning (R202). -/
def Obligations.InsertLsbChangesOnlyBitZero : Prop :=
  ∀ (m : Memory) (a : Nat) (b : Bool),
    (∀ old, m.get a = some old → ∃ m' v, insertLSB m a b = some m' ∧ m'.get a = some v ∧
      v.getLsbD 0 = b ∧ (∀ j, 1 ≤ j → v.getLsbD j = old.getLsbD j) ∧ v.toNat ≤ old.toNat + 1 ∧ old.toNat ≤ v.toNat + 1 ∧
      (∀ x, x ≠ a → m'.get x = m.get x)) ∧
    (∀ v, m.get a = some v → extractLSB m a = some (v.getLsbD 0)) ∧
    (m.get a = none → insertLSB m a b = none ∧ extractLSB m a = none)

/-! ### ENCODE (43_encode.md) -/

/-- R126, R123, R122: ENCODE that passes its three tests and whose bytes are defined completes: bit 0 of each of the `8*L + 16`
payload channel bytes from `AddrOf(0)` on becomes the frame's bit, STATUS 0x00000002, DPOS `8*L`; every other PIX byte, and
CMD, PIXCNT, MSGLEN and MSG, are as before. -/
def Obligations.EncodePlacesTheFrame : Prop :=
  ∀ (s : State) (m : List Byte), EncodeAccepts s → m.length = s.msglen.toNat → MessageIs s.msg m →
    PayloadDefined s.pix (8 * s.msglen.toNat + 16) →
    ∃ pix, exec .encode s =
        .next { s with pix := pix, status := 0x00000002#32, dpos := BitVec.ofNat 32 (8 * s.msglen.toNat) } ∧
      (∀ i b, (frame m)[i]? = some b → ∃ old, s.pix.get (addrOf i) = some old ∧
        pix.get (addrOf i) = some ((old &&& 0xFE#8) ||| (if b = true then 1#8 else 0#8))) ∧
      (∀ a, (∀ i < 8 * s.msglen.toNat + 16, a ≠ addrOf i) → pix.get a = s.pix.get a)

/-- R161: ENCODE with `N = 0` or `L = 0`, both in range, ends in EmptyInput with EI for the image and EM for the message, whatever
the capacity test would say; ENCODE ends in EmptyInput only then, and DECODE never does. -/
def Obligations.EmptyInputIsEncodesAlone : Prop :=
  ∀ s : State,
    (s.pixcnt.toNat ≤ s.cfg.pixMax → s.msglen.toNat ≤ s.cfg.msgMax →
      (s.pixcnt.toNat = 0 → s.msglen.toNat ≠ 0 →
        exec .encode s = .next { s with dpos := 0#32, status := 0x00000027#32 }) ∧
      (s.pixcnt.toNat ≠ 0 → s.msglen.toNat = 0 →
        exec .encode s = .next { s with dpos := 0#32, status := 0x00000047#32 }) ∧
      (s.pixcnt.toNat = 0 → s.msglen.toNat = 0 →
        exec .encode s = .next { s with dpos := 0#32, status := 0x00000067#32 })) ∧
    (∀ t, exec .encode s = .next t → errField t.status = 1#3 →
      s.pixcnt.toNat ≤ s.cfg.pixMax ∧ s.msglen.toNat ≤ s.cfg.msgMax ∧ (s.pixcnt.toNat = 0 ∨ s.msglen.toNat = 0)) ∧
    (∀ t, exec .decode s = .next t → errField t.status ≠ 1#3)

/-- R162, R102, R103: ENCODE with `N >= 1` and `L >= 1`, both in range, and `8*L + 16 > 3*N` in exact arithmetic, ends in
CapacityExceeded with no byte read; ENCODE ends in it only then, and DECODE never does. -/
def Obligations.CapacityExceededIsEncodesAlone : Prop :=
  ∀ s : State,
    (1 ≤ s.pixcnt.toNat → s.pixcnt.toNat ≤ s.cfg.pixMax → 1 ≤ s.msglen.toNat → s.msglen.toNat ≤ s.cfg.msgMax →
      3 * s.pixcnt.toNat < 8 * s.msglen.toNat + 16 →
      exec .encode s = .next { s with dpos := 0#32, status := 0x0000000B#32 }) ∧
    (∀ t, exec .encode s = .next t → errField t.status = 2#3 →
      1 ≤ s.pixcnt.toNat ∧ s.pixcnt.toNat ≤ s.cfg.pixMax ∧ 1 ≤ s.msglen.toNat ∧ s.msglen.toNat ≤ s.cfg.msgMax ∧
      3 * s.pixcnt.toNat < 8 * s.msglen.toNat + 16) ∧
    (∀ t, exec .decode s = .next t → errField t.status ≠ 2#3)

/-- The frame of ENCODE however it ends (R68, R123, R126): it writes no register but STATUS and DPOS, no MSG byte, and no PIX
byte but those at `AddrOf(i)` for `i < 8*L + 16`. -/
def Obligations.EncodeLeavesTheRestAlone : Prop :=
  ∀ s t : State, exec .encode s = .next t →
    t.cfg = s.cfg ∧ t.cmd = s.cmd ∧ t.pixcnt = s.pixcnt ∧ t.msglen = s.msglen ∧ t.msg = s.msg ∧ t.turns = s.turns ∧
    t.replies = s.replies ∧
    (∀ a, (∀ i < 8 * s.msglen.toNat + 16, a ≠ addrOf i) → t.pix.get a = s.pix.get a)

/-- R127, which the spec marks as its own inference ("derived: from rule R120 and rule R117"): after a successful ENCODE the
LSB stream begins with the frame of the message, its delimiter at `8*L`, and goes on as it was. -/
def Obligations.EncodedStreamBeginsWithTheFrame : Prop :=
  ∀ (s t : State) (m : List Byte), exec .encode s = .next t → t.runState = .done → m.length = s.msglen.toNat →
    MessageIs s.msg m →
    (∀ i < 8 * s.msglen.toNat + 16, extractLSB t.pix (addrOf i) = (frame m)[i]?) ∧
    (∀ i, 8 * s.msglen.toNat + 16 ≤ i → extractLSB t.pix (addrOf i) = extractLSB s.pix (addrOf i)) ∧
    (∀ j < 16, extractLSB t.pix (addrOf (8 * s.msglen.toNat + j)) = delim[j]?)

/-- R129, which the spec marks as its own inference ("derived: from rule R117"): a second ENCODE with the same operands,
issued after a successful one, leaves PIX as the first left it, and ends in the same state. PIX in canonical form is an
invariant (`StepKeepsTheInvariant`). -/
def Obligations.EncodeTwiceIsEncodeOnce : Prop :=
  ∀ s t : State, s.pix.wf → exec .encode s = .next t → t.runState = .done →
    exec .encode { t with status := 0x00000001#32 } = .next t

/-- ENCODE's outcome is a function of the parameters, PIXCNT, MSGLEN and the bytes it reads (R169): two states that agree on
them end alike, and the bytes it writes come out alike. -/
def Obligations.EncodeDependsOnItsOperandsOnly : Prop :=
  ∀ s s' t : State, s'.cfg = s.cfg → s'.pixcnt = s.pixcnt → s'.msglen = s.msglen →
    (∀ j < s.msglen.toNat, s'.msg.get j = s.msg.get j) →
    (∀ i < 8 * s.msglen.toNat + 16, s'.pix.get (addrOf i) = s.pix.get (addrOf i)) →
    exec .encode s = .next t →
    ∃ t', exec .encode s' = .next t' ∧ t'.status = t.status ∧ t'.dpos = t.dpos ∧
      ∀ i < 8 * s.msglen.toNat + 16, t'.pix.get (addrOf i) = t.pix.get (addrOf i)

/-! ### DECODE (44_decode.md) -/

/-- R140, R147: DECODE of a range whose payload bytes are defined, with its first delimiter at `k`, not stopped by STRICT_K8,
completes: byte `j` of MSG gets stream bits `8*j` to `8*j + 7`, the first as its bit 7, for `j < k div 8`; MSGLEN `k div 8`,
DPOS `k`, STATUS 0x00000002; every other byte of MSG, and CMD, PIXCNT and PIX, are as before. -/
def Obligations.DecodeDeliversTheMessage : Prop :=
  ∀ (s : State) (S : List Bool) (k : Nat), s.pixcnt.toNat ≤ s.cfg.pixMax → S.length = 3 * s.pixcnt.toNat →
    StreamIs s.pix S → FirstDelimAt S k → (s.cfg.strictK8 = true → k % 8 = 0) →
    ∃ msg, exec .decode s = .next { s with
        msg := msg, msglen := BitVec.ofNat 32 (k / 8), dpos := BitVec.ofNat 32 k, status := 0x00000002#32 } ∧
      (∀ j < k / 8, ∃ b, msg.get j = some b ∧ ∀ t < 8, S[8 * j + t]? = some (b.getLsbD (7 - t))) ∧
      (∀ j, k / 8 ≤ j → msg.get j = s.msg.get j)

/-- R143: no delimiter in the stream ends DECODE in NoHiddenMessage; only STATUS and DPOS change. -/
def Obligations.NoDelimiterIsNoHiddenMessage : Prop :=
  ∀ (s : State) (S : List Bool), s.pixcnt.toNat ≤ s.cfg.pixMax → S.length = 3 * s.pixcnt.toNat → StreamIs s.pix S →
    (∀ j, ¬ DelimAt S j) → exec .decode s = .next { s with dpos := 0#32, status := 0x0000000F#32 }

/-- R145: a first delimiter at an offset that is no multiple of 8: with STRICT_K8 0 DECODE succeeds with the `k div 8` whole
bytes and DPOS `k`; with STRICT_K8 1 it ends in NoHiddenMessage and writes neither MSG nor MSGLEN, and a later aligned match
is not looked for. -/
def Obligations.UnalignedDelimiterFollowsStrictK8 : Prop :=
  ∀ (s : State) (S : List Bool) (k : Nat), s.pixcnt.toNat ≤ s.cfg.pixMax → S.length = 3 * s.pixcnt.toNat →
    StreamIs s.pix S → FirstDelimAt S k → k % 8 ≠ 0 →
    (s.cfg.strictK8 = true → exec .decode s = .next { s with dpos := 0#32, status := 0x0000000F#32 }) ∧
    (s.cfg.strictK8 = false → exec .decode s = .next { s with
      msg := s.msg.setBytes 0 (fromBits (S.take (8 * (k / 8)))), msglen := BitVec.ofNat 32 (k / 8),
      dpos := BitVec.ofNat 32 k, status := 0x00000002#32 })

/-- R144: DECODE of at most five pixels, none included, ends in NoHiddenMessage and not in EmptyInput. -/
def Obligations.TinyBuffersHoldNoMessage : Prop :=
  ∀ s : State, s.pixcnt.toNat ≤ 5 → s.pixcnt.toNat ≤ s.cfg.pixMax → PayloadDefined s.pix (3 * s.pixcnt.toNat) →
    exec .decode s = .next { s with dpos := 0#32, status := 0x0000000F#32 }

/-- R148: DECODE never writes PIX, whether it succeeds or fails. Beside it the frame of DECODE however it ends: CMD and PIXCNT are
unchanged (R147, and R68, which the spec marks as its own inference), and no MSG byte at or beyond `(3*N - 16) div 8` is written
(from R142 and R147, as R150, which the spec marks as its own inference too). -/
def Obligations.DecodeNeverWritesPix : Prop :=
  ∀ s t : State, exec .decode s = .next t →
    t.pix = s.pix ∧ t.cfg = s.cfg ∧ t.cmd = s.cmd ∧ t.pixcnt = s.pixcnt ∧ t.turns = s.turns ∧ t.replies = s.replies ∧
    (∀ j, (3 * s.pixcnt.toNat - 16) / 8 ≤ j → t.msg.get j = s.msg.get j)

/-- R149: MSGLEN and MSG are no inputs of DECODE: with any other values of them it ends with the same STATUS and DPOS and, on
success, the same MSGLEN and the same message. -/
def Obligations.DecodeIgnoresMsglenAndMsg : Prop :=
  ∀ (s t : State) (v : Word) (mem : Memory), exec .decode s = .next t →
    ∃ t', exec .decode { s with msglen := v, msg := mem } = .next t' ∧ t'.status = t.status ∧ t'.dpos = t.dpos ∧
      (t.runState = .done → t'.msglen = t.msglen ∧ ∀ j < t.dpos.toNat / 8, t'.msg.get j = t.msg.get j)

/-- R113, R114, R56: DECODE sees bit 0 of the `3*N` payload channel bytes and nothing else of PIX: alpha bytes, bits 7:1 and
bytes beyond `4*N` cannot influence its result. -/
def Obligations.DecodeSeesOnlyPayloadLsbs : Prop :=
  ∀ (s t : State) (mem : Memory),
    (∀ i < 3 * s.pixcnt.toNat, extractLSB mem (addrOf i) = extractLSB s.pix (addrOf i)) →
    exec .decode s = .next t → exec .decode { s with pix := mem } = .next { t with pix := mem }

/-- R150, which the spec marks as its own inference ("derived: from rule R142 and rule R9"): with valid parameters the output
of a successful DECODE fits: MSGLEN is at most `(3*N - 16) div 8`, hence at most MSGMAX, and MSG stays inside its range. -/
def Obligations.DecodedMessageFits : Prop :=
  ∀ s t : State, s.cfg.Valid → exec .decode s = .next t → t.runState = .done →
    t.dpos.toNat + 16 ≤ 3 * s.pixcnt.toNat ∧ t.msglen.toNat ≤ (3 * s.pixcnt.toNat - 16) / 8 ∧
    t.msglen.toNat ≤ s.cfg.msgMax ∧ (s.msg.Below s.cfg.msgMax → t.msg.Below s.cfg.msgMax)

/-- R153: DECODE changes no PIX byte and no input register, and a second DECODE of the same buffer gives the same STATUS,
DPOS, MSGLEN and MSG. MSG in canonical form is an invariant (`StepKeepsTheInvariant`). -/
def Obligations.DecodeTwiceIsDecodeOnce : Prop :=
  ∀ s t : State, s.msg.wf → exec .decode s = .next t →
    t.pix = s.pix ∧ t.pixcnt = s.pixcnt ∧ exec .decode { t with status := 0x00000001#32 } = .next t

/-- The round trip, R151, which the spec marks as its own inference ("derived: from rule R127, rule R142 and rule R98"). After
a successful ENCODE of `m`, a DECODE of the same `N` pixels, in any state `u` that still holds them and whose payload bytes
are all defined, succeeds with `k = 8*L`, MSGLEN `L` and the message `m` if and only if the delimiter does not occur inside
the message's own bits. -/
def Obligations.DecodeRecoversWhatEncodeHid : Prop :=
  ∀ (s t u : State) (m : List Byte), s.cfg.Valid → m.length = s.msglen.toNat → MessageIs s.msg m →
    exec .encode s = .next t → t.runState = .done →
    u.cfg = s.cfg → u.pixcnt = s.pixcnt → u.pix = t.pix → PayloadDefined s.pix (3 * s.pixcnt.toNat) →
    ((∃ v, exec .decode u = .next v ∧ v.runState = .done ∧ v.dpos.toNat = 8 * m.length ∧
        v.msglen.toNat = m.length ∧ ∀ j < m.length, v.msg.get j = m[j]?) ↔
      ∀ j, ¬ DelimAt (toBits m) j)

/-- R152, which the spec marks as its own inference ("derived: from rule R142 and rule R97"): when the delimiter occurs inside
the message's own bits, first at `j0`, a DECODE after the ENCODE stops there: it delivers the first `j0 div 8` bytes, or ends
in NoHiddenMessage when STRICT_K8 is 1 and `j0` is no multiple of 8. -/
def Obligations.EarlyDelimiterShortensTheMessage : Prop :=
  ∀ (s t u : State) (m : List Byte) (j0 : Nat), s.cfg.Valid → m.length = s.msglen.toNat → MessageIs s.msg m →
    exec .encode s = .next t → t.runState = .done →
    u.cfg = s.cfg → u.pixcnt = s.pixcnt → u.pix = t.pix → PayloadDefined s.pix (3 * s.pixcnt.toNat) →
    FirstDelimAt (toBits m) j0 →
    (s.cfg.strictK8 = true → j0 % 8 ≠ 0 →
      exec .decode u = .next { u with dpos := 0#32, status := 0x0000000F#32 }) ∧
    (¬ (s.cfg.strictK8 = true ∧ j0 % 8 ≠ 0) →
      ∃ v, exec .decode u = .next v ∧ v.runState = .done ∧ v.dpos.toNat = j0 ∧ v.msglen.toNat = j0 / 8 ∧
        ∀ j < j0 / 8, v.msg.get j = m[j]?)

/-! ### How commands end (60_exceptions.md, 10_state.md, 70_reset_and_hazards.md) -/

/-- R160: the result codes each command can end in: ENCODE in success, EmptyInput, CapacityExceeded or IllegalCommand; DECODE in
success, NoHiddenMessage or IllegalCommand; a reserved word in IllegalCommand. -/
def Obligations.ResultCodesOfEachCommand : Prop :=
  ∀ s t : State,
    (exec .encode s = .next t → t.status ∈
      [0x00000002#32, 0x00000027#32, 0x00000047#32, 0x00000067#32, 0x0000000B#32, 0x00000013#32]) ∧
    (exec .decode s = .next t → t.status ∈ [0x00000002#32, 0x0000000F#32, 0x00000013#32]) ∧
    (s.cmd ≠ 0x00000001#32 → s.cmd ≠ 0x00000002#32 → engineStep s = .next t → t.status = 0x00000013#32)

/-- R167, R125, R166: a command that ends in ERROR has written STATUS and DPOS (0) and nothing else. -/
def Obligations.FailureChangesOnlyStatusAndDpos : Prop :=
  ∀ s t : State, engineStep s = .next t → t.runState = .error → t = { s with status := t.status, dpos := 0#32 }

/-- R29, which the spec marks as its own inference ("derived: from rule R9, rule R126 and rule R147"): DPOS after a command:
`8*L` after a successful ENCODE, the offset of the stream's first delimiter after a successful DECODE, 0 after an error.
Parameters are valid. -/
def Obligations.DposHoldsTheDelimiterOffset : Prop :=
  ∀ (i : Instr) (s t : State), s.cfg.Valid → exec i s = .next t →
    (t.runState = .done → i = .encode → t.dpos.toNat = 8 * s.msglen.toNat) ∧
    (t.runState = .done → i = .decode → ∀ S : List Bool, S.length = 3 * s.pixcnt.toNat → StreamIs s.pix S →
      FirstDelimAt S t.dpos.toNat) ∧
    (t.runState = .error → t.dpos = 0#32)

/-- R202: a command is refused exactly when it would read an undefined byte; one that ends before reading memory is not
affected. -/
def Obligations.UndefinedByteRefusesTheCommand : Prop :=
  ∀ (i : Instr) (s : State),
    (BytesReady i s → ∃ t, exec i s = .next t) ∧
    (¬ BytesReady i s → ∃ space, exec i s = .refused (.undefinedByte space))

/-- R210, R18: while STATE is BUSY the engine's step is enabled unless R202 applies, and it ends the command: whichever way the
engine gets its turn, STATE is then DONE or ERROR. That an empty schedule or a `POLL` gives it its turn is the model's schedule
(log 2). -/
def Obligations.PendingCommandEnds : Prop :=
  ∀ s : State, s.runState = .busy → CommandReady s →
    s.turns = [] ∨ (∃ rest, s.turns = .engine :: rest) ∨ (∃ rest, s.turns = .host .poll :: rest) →
    ∃ t, step s = .next t ∧ (t.runState = .done ∨ t.runState = .error)

/-- R114, and R124, which the spec marks as its own inference ("derived: from rule R114"): every channel 3 byte is the same
before and after every command, whether it succeeds or fails. -/
def Obligations.AlphaBytesNeverChange : Prop :=
  ∀ (i : Instr) (s t : State) (p : Nat), exec i s = .next t → t.pix.get (4 * p + 3) = s.pix.get (4 * p + 3)

/-- R56: bits 7:1 of every PIX byte are preserved by every command, and so is whether the byte is defined. -/
def Obligations.UpperBitsArePreserved : Prop :=
  ∀ (i : Instr) (s t : State) (a : Nat), exec i s = .next t →
    (t.pix.get a).map (fun v : Byte => v >>> 1) = (s.pix.get a).map (fun v : Byte => v >>> 1)

/-! ### The whole machine: what every step keeps (10_state.md) -/

/-- R59, and R39 and R26, which the spec marks as its own inferences ("derived: …"): every step keeps the invariant: valid
parameters, STATUS one of its nine values, DPOS 0 in IDLE and ERROR, CMD 0 in IDLE, both memories in canonical form and inside
their ranges. -/
def Obligations.StepKeepsTheInvariant : Prop :=
  ∀ s t : State, Inv s → step s = .next t → Inv t

/-- R38, R39: the reset state has the invariant, for all valid parameters and whatever is scheduled. -/
def Obligations.ResetSatisfiesTheInvariant : Prop :=
  ∀ (c : Config) (turns : List Turn), c.Valid → Inv { State.resetOf c with turns := turns }

/-- R26 and R39, which the spec marks as its own inferences ("derived: …"): in every reachable state, for all valid parameters
and every schedule of engine turns, host transactions and resets, STATUS has one of its nine values and the whole invariant
holds. -/
def Obligations.ReachableStatesSatisfyTheInvariant : Prop :=
  ∀ s : State, Reachable s → Inv s ∧ s.status ∈
    [0x00000000#32, 0x00000001#32, 0x00000002#32, 0x00000027#32, 0x00000047#32, 0x00000067#32, 0x0000000B#32,
      0x0000000F#32, 0x00000013#32]

/-- R39, last clauses, which the spec marks as its own inference ("derived: …"): `DPOS = 8 * MSGLEN` after ENCODE and `MSGLEN
= DPOS div 8` after DECODE stay true until the host next writes MSGLEN. -/
def Obligations.ResultStaysTiedUntilMsglenIsWritten : Prop :=
  ∀ s t : State, s.cfg.Valid → ResultTied s → step s = .next t →
    (∀ v rest, s.turns ≠ .host (.wr 3 v) :: rest) → ResultTied t

/-- No step changes the parameters (R9, R10: they belong to the implementation). That they stand in State is the model's form
(log 1). -/
def Obligations.StepKeepsTheParameters : Prop :=
  ∀ s t : State, step s = .next t → t.cfg = s.cfg

/-- R23: the only transitions of STATE: to IDLE by reset, from IDLE, DONE or ERROR to BUSY by a command issue, from BUSY to
DONE or ERROR by the engine's performance of the latched command. When the engine gets to move is the model's schedule
(log 2). -/
def Obligations.StateTransitions : Prop :=
  ∀ s t : State, step s = .next t → t.runState ≠ s.runState →
    (t.runState = .idle ∧ ∃ rest, s.turns = .reset :: rest) ∨
    (s.runState ≠ .busy ∧ t.runState = .busy ∧ ∃ w rest, s.turns = .host (.wr 0 w) :: rest) ∨
    (EnginePerforms s t ∧ (t.runState = .done ∨ t.runState = .error))

/-- R33: no step makes a defined byte undefined except reset. -/
def Obligations.DefinedBytesStayDefined : Prop :=
  ∀ (s t : State) (a : Nat), step s = .next t → (∀ rest, s.turns ≠ .reset :: rest) →
    ((s.pix.get a).isSome = true → (t.pix.get a).isSome = true) ∧
    ((s.msg.get a).isSome = true → (t.msg.get a).isSome = true)

/-- R20, R21, R27, R28, R29: who writes which register: CMD and PIXCNT change only by the host's write (or reset), MSGLEN by the
host's write or the engine's DECODE that succeeds, DPOS and STATUS by the engine as it ends a command (R165, R166), STATUS also
by the issue (R88). When the engine gets to move is the model's schedule (log 2). -/
def Obligations.RegistersHaveTheirOwnWriters : Prop :=
  ∀ s t : State, step s = .next t → (∀ rest, s.turns ≠ .reset :: rest) →
    (t.cmd = s.cmd ∨ ∃ w rest, s.turns = .host (.wr 0 w) :: rest ∧ t.cmd = w) ∧
    (t.pixcnt = s.pixcnt ∨ ∃ v rest, s.turns = .host (.wr 2 v) :: rest ∧ t.pixcnt = v) ∧
    (t.msglen = s.msglen ∨ (∃ v rest, s.turns = .host (.wr 3 v) :: rest ∧ t.msglen = v) ∨
      (EnginePerforms s t ∧ decodeCmd s.cmd = .ok .decode ∧ t.runState = .done)) ∧
    (t.dpos = s.dpos ∨ (EnginePerforms s t ∧ (t.runState = .done ∨ t.runState = .error))) ∧
    (t.status = s.status ∨ (EnginePerforms s t ∧ (t.runState = .done ∨ t.runState = .error)) ∨
      ∃ w rest, s.turns = .host (.wr 0 w) :: rest ∧ t.status = 0x00000001#32)

/-! ### The calls `Encode(px, m)` and `Decode(px)` (30_encoding.md R89) -/

/-- R89, `Encode(px, m)`, its writes made in any order `ws`, from any state that is not BUSY, for valid parameters. It gives
`pixels'` when the message fits: `px` with the frame's bits in bit 0 of the payload channel bytes. Otherwise it ends with the
failure named by STATUS.ERR, and PIX still holds `px`. With a buffer or a message beyond the memories, or while BUSY, the call is
refused (R200, R203). That nothing but the call's own transactions and the engine's step at its `POLL` falls inside it is the
model's choice (log 2, log 15). -/
def Obligations.EncodeCallGivesPixelsOrTheFailure : Prop :=
  ∀ (s : State) (px m : List Byte) (n : Nat) (ws : List Transaction), s.cfg.Valid → px.length = 4 * n →
    ws.Perm (encodeWrites px m) →
    (s.runState ≠ .busy → n ≤ s.cfg.pixMax → m.length ≤ s.cfg.msgMax →
      (1 ≤ n → 1 ≤ m.length → 8 * m.length + 16 ≤ 3 * n →
        ∃ t px', encodeCallBy ws n s = .next ⟨t, .pixels px'⟩ ∧ px'.length = px.length ∧
          (∀ i b, (frame m)[i]? = some b → ∃ old, px[addrOf i]? = some old ∧
            px'[addrOf i]? = some ((old &&& 0xFE#8) ||| (if b = true then 1#8 else 0#8))) ∧
          (∀ a, (∀ i < 8 * m.length + 16, a ≠ addrOf i) → px'[a]? = px[a]?)) ∧
      (n = 0 ∨ m.length = 0 →
        ∃ t, encodeCallBy ws n s = .next ⟨t, .failed (.emptyInput (decide (n = 0)) (decide (m.length = 0)))⟩ ∧
          ∀ a < px.length, t.pix.get a = px[a]?) ∧
      (1 ≤ n → 1 ≤ m.length → 3 * n < 8 * m.length + 16 →
        ∃ t, encodeCallBy ws n s = .next ⟨t, .failed .capacityExceeded⟩ ∧ ∀ a < px.length, t.pix.get a = px[a]?)) ∧
    (s.runState = .busy ∨ s.cfg.pixMax < n ∨ s.cfg.msgMax < m.length → ∃ r, encodeCallBy ws n s = .refused r)

/-- R89, `Decode(px)`, its writes made in any order `ws`, from any state that is not BUSY, for valid parameters. With the first
delimiter of the buffer's LSB stream at `k` it gives the `k div 8` whole bytes before it, and with none, or when STRICT_K8 is 1
and `k` is no multiple of 8, it ends with NoHiddenMessage. With a buffer beyond PIX, or while BUSY, the call is refused (R200,
R203). What falls inside the call is the model's choice, as for Encode (log 2, log 15). -/
def Obligations.DecodeCallGivesTheMessageOrTheFailure : Prop :=
  ∀ (s : State) (px : List Byte) (n : Nat) (S : List Bool) (ws : List Transaction), s.cfg.Valid → px.length = 4 * n →
    S.length = 3 * n → (∀ i < 3 * n, S[i]? = px[addrOf i]?.map fun v => v.getLsbD 0) → ws.Perm (decodeWrites px) →
    (s.runState ≠ .busy → n ≤ s.cfg.pixMax →
      (∀ k, FirstDelimAt S k → ¬ (s.cfg.strictK8 = true ∧ k % 8 ≠ 0) →
        ∃ t, decodeCallBy ws s = .next ⟨t, .message (fromBits (S.take k))⟩) ∧
      (∀ k, FirstDelimAt S k → s.cfg.strictK8 = true → k % 8 ≠ 0 →
        ∃ t, decodeCallBy ws s = .next ⟨t, .failed .noHiddenMessage⟩) ∧
      ((∀ j, ¬ DelimAt S j) → ∃ t, decodeCallBy ws s = .next ⟨t, .failed .noHiddenMessage⟩)) ∧
    (s.runState = .busy ∨ s.cfg.pixMax < n → ∃ r, decodeCallBy ws s = .refused r)

/-- The source's round trip as calls (R89, R151, the latter marked by the spec as its own inference): when `Encode(px, m)` gave
`pixels'`, then `Decode(pixels')`, in any state of such a block that is not BUSY, gives `m` if and only if the delimiter does not
occur inside the message's own bits, and so does a Decode in place, which does not write the buffer again. What falls inside a
call is the model's choice (log 2, log 15). -/
def Obligations.DecodeCallUndoesEncodeCall : Prop :=
  ∀ (s t : State) (px m px' : List Byte) (n : Nat), s.cfg.Valid → px.length = 4 * n →
    encodeCall px m s = .next ⟨t, .pixels px'⟩ →
    (∀ u : State, u.cfg = s.cfg → u.runState ≠ .busy →
      ((∃ v, decodeCall px' u = .next ⟨v, .message m⟩) ↔ ∀ j, ¬ DelimAt (toBits m) j)) ∧
    ((∃ v, decodeCallInPlace n t = .next ⟨v, .message m⟩) ↔ ∀ j, ¬ DelimAt (toBits m) j)
end

