-- ==== Sys2Proof/Laws/Memory.lean ====
section
/-! SUPPORT. What the byte memory does: read after write, the canonical form is kept, two canonical memories that read alike are
equal, and what a run of reads or writes amounts to. -/

namespace Sys2Proof.Machine

/-- A read after a write: the byte written at its address, every other byte as before (R33, R63). -/
theorem Memory.get_set (m : Memory) (a : Nat) (v : Byte) (b : Nat) :
    (m.set a v).get b = if b = a then some v else m.get b := by
  induction m with
  | nil => simp only [Memory.set, Memory.get, eq_comm]
  | cons c m ih =>
    simp only [Memory.set]
    split
    · simp only [Memory.get, eq_comm]
    · split <;> simp only [Memory.get, ih] <;> grind

@[simp] theorem Memory.get_set_self (m : Memory) (a : Nat) (v : Byte) : (m.set a v).get a = some v := by
  simp [Memory.get_set]

theorem Memory.get_set_ne (m : Memory) {a b : Nat} (v : Byte) (h : b ≠ a) : (m.set a v).get b = m.get b := by
  simp [Memory.get_set, h]

/-- The addresses listed after a write are the old ones and the one written. -/
theorem Memory.mem_set {m : Memory} {a : Nat} {v : Byte} {c : Host.Cell} (h : c ∈ m.set a v) :
    c = (a, v) ∨ c ∈ m := by
  induction m with
  | nil => simpa [Memory.set] using h
  | cons d m ih =>
    simp only [Memory.set] at h
    split at h
    · simpa using h
    · split at h
      · rcases List.mem_cons.1 h with h | h
        · exact .inl h
        · exact .inr (List.mem_cons_of_mem _ h)
      · rcases List.mem_cons.1 h with h | h
        · exact .inr (h ▸ List.mem_cons_self)
        · exact (ih h).imp_right (List.mem_cons_of_mem _)

/-- A write keeps the canonical form. -/
theorem Memory.wf_set {m : Memory} (h : m.wf) (a : Nat) (v : Byte) : (m.set a v).wf := by
  induction m with
  | nil => simp [Memory.set, Memory.wf]
  | cons d m ih =>
    obtain ⟨hd, hm⟩ := List.pairwise_cons.1 h
    simp only [Memory.set]
    split
    case isTrue hlt =>
      refine List.pairwise_cons.2 ⟨fun x hx => ?_, h⟩
      rcases List.mem_cons.1 hx with rfl | hx
      · exact hlt
      · exact lt_trans hlt (hd x hx)
    case isFalse hlt =>
      split
      case isTrue heq => exact List.pairwise_cons.2 ⟨fun x hx => heq ▸ hd x hx, hm⟩
      case isFalse hne =>
        refine List.pairwise_cons.2 ⟨fun x hx => ?_, ih hm⟩
        rcases Memory.mem_set hx with rfl | hx
        · exact lt_of_le_of_ne (not_lt.1 hlt) (Ne.symm hne)
        · exact hd x hx

/-- Reading below every listed address finds nothing. -/
theorem Memory.get_eq_none {m : Memory} {a : Nat} (h : ∀ c ∈ m, a < c.1) : m.get a = none := by
  induction m with
  | nil => rfl
  | cons d m ih =>
    have hd := h d List.mem_cons_self
    simp only [Memory.get, if_neg (Nat.ne_of_gt hd)]
    exact ih fun c hc => h c (List.mem_cons_of_mem _ hc)

/-- Equal memories are equal data: two canonical memories that read alike are the same list. -/
theorem Memory.ext_get {m n : Memory} (hm : m.wf) (hn : n.wf) (h : ∀ a, m.get a = n.get a) : m = n := by
  induction m generalizing n with
  | nil =>
    cases n with
    | nil => rfl
    | cons d n => simpa [Memory.get] using h d.1
  | cons c m ih =>
    cases n with
    | nil => simpa [Memory.get] using h c.1
    | cons d n =>
      obtain ⟨hc, hm⟩ := List.pairwise_cons.1 hm
      obtain ⟨hd, hn⟩ := List.pairwise_cons.1 hn
      have hcd : c.1 = d.1 := by
        rcases Nat.lt_trichotomy c.1 d.1 with hlt | heq | hgt
        · have hnone : Memory.get (d :: n) c.1 = none := Memory.get_eq_none fun x hx => by
            rcases List.mem_cons.1 hx with rfl | hx
            · exact hlt
            · exact lt_trans hlt (hd x hx)
          have := h c.1
          rw [hnone] at this
          simp [Memory.get] at this
        · exact heq
        · have hnone : Memory.get (c :: m) d.1 = none := Memory.get_eq_none fun x hx => by
            rcases List.mem_cons.1 hx with rfl | hx
            · exact hgt
            · exact lt_trans hgt (hc x hx)
          have := h d.1
          rw [hnone] at this
          simp [Memory.get] at this
      have hv : c.2 = d.2 := by simpa [Memory.get, hcd] using h c.1
      have hrest : ∀ a, Memory.get m a = Memory.get n a := by
        intro a
        by_cases ha : c.1 = a
        · rw [Memory.get_eq_none (m := m) fun x hx => ha ▸ hc x hx,
            Memory.get_eq_none (m := n) fun x hx => (hcd ▸ ha : d.1 = a) ▸ hd x hx]
        · simpa [Memory.get, ha, hcd ▸ ha] using h a
      rw [ih hm hn hrest, Prod.ext hcd hv]

/-- What a run of byte writes leaves at each address. -/
theorem Memory.get_setBytes (m : Memory) (j : Nat) (r : List Byte) (a : Nat) :
    (m.setBytes j r).get a = if j ≤ a ∧ a < j + r.length then r[a - j]? else m.get a := by
  induction r generalizing m j with
  | nil => simp [Memory.setBytes]
  | cons v r ih =>
    rw [Memory.setBytes, ih, Memory.get_set]
    rcases Nat.lt_trichotomy a j with h | h | h
    · rw [if_neg (by omega), if_neg (by omega), if_neg (by omega)]
    · subst h
      rw [if_neg (by omega), if_pos rfl, if_pos (by simp)]
      simp
    · obtain ⟨d, rfl⟩ := Nat.exists_eq_add_of_lt h
      have e1 : j + d + 1 - (j + 1) = d := by omega
      have e2 : j + d + 1 - j = d + 1 := by omega
      simp only [e1, e2, List.getElem?_cons_succ, List.length_cons]
      by_cases hd : d < r.length
      · rw [if_pos (by omega), if_pos (by omega)]
      · rw [if_neg (by omega), if_neg (by omega), if_neg (by omega)]

/-- A run of byte writes keeps the canonical form. -/
theorem Memory.wf_setBytes {m : Memory} (h : m.wf) (j : Nat) (r : List Byte) : (m.setBytes j r).wf := by
  induction r generalizing m j with
  | nil => exact h
  | cons v r ih => exact ih (Memory.wf_set h j v) (j + 1)

/-- The addresses listed after a run of byte writes. -/
theorem Memory.mem_setBytes {m : Memory} {j : Nat} {r : List Byte} {c : Host.Cell} (h : c ∈ m.setBytes j r) :
    (j ≤ c.1 ∧ c.1 < j + r.length) ∨ c ∈ m := by
  induction r generalizing m j with
  | nil => exact .inr h
  | cons v r ih =>
    rcases ih h with h | h
    · exact .inl (by simp; omega)
    · rcases Memory.mem_set h with rfl | h
      · exact .inl (by simp)
      · exact .inr h

/-- What a scan's reads give, once for all: a list of the right length whose entries are what was read. -/
theorem collect_eq_some {α : Type} {f : Nat → Option α} {i n : Nat} {xs : List α} :
    collect f i n = some xs ↔ xs.length = n ∧ ∀ t < n, f (i + t) = xs[t]? := by
  induction n generalizing i xs with
  | zero =>
    simp only [collect, Option.some.injEq]
    constructor
    · rintro rfl; simp
    · rintro ⟨h, -⟩; exact (List.length_eq_zero_iff.1 h).symm
  | succ n ih =>
    constructor
    · intro h
      simp only [collect] at h
      split at h
      case h_1 x ys hx hys =>
        obtain rfl : x :: ys = xs := Option.some.inj h
        obtain ⟨hlen, hget⟩ := ih.1 hys
        refine ⟨by simp [hlen], fun t ht => ?_⟩
        cases t with
        | zero => simpa using hx
        | succ t =>
          have := hget t (by omega)
          rw [List.getElem?_cons_succ, ← this]
          congr 1
          omega
      case h_2 => cases h
    · rintro ⟨hlen, hget⟩
      cases xs with
      | nil => simp at hlen
      | cons x xs =>
        have hx : f i = some x := by simpa using hget 0 (by omega)
        have hxs : collect f (i + 1) n = some xs := by
          refine ih.2 ⟨by simpa using hlen, fun t ht => ?_⟩
          have := hget (t + 1) (by omega)
          rw [List.getElem?_cons_succ] at this
          rw [← this]
          congr 1
          omega
        simp [collect, hx, hxs]

/-- A scan's reads find every byte defined, or the scan has no result. -/
theorem collect_isSome {α : Type} {f : Nat → Option α} {i n : Nat} :
    (collect f i n).isSome = true ↔ ∀ t < n, (f (i + t)).isSome = true := by
  induction n generalizing i with
  | zero => simp [collect]
  | succ n ih =>
    constructor
    · intro h t ht
      obtain ⟨xs, hxs⟩ := Option.isSome_iff_exists.1 h
      obtain ⟨hlen, hget⟩ := collect_eq_some.1 hxs
      rw [hget t ht, List.getElem?_eq_getElem (by omega)]
      rfl
    · intro h
      have hx := h 0 (by omega)
      have hxs := (ih (i := i + 1)).2 fun t ht => by
        have := h (t + 1) (by omega)
        rwa [show i + (t + 1) = i + 1 + t by omega] at this
      obtain ⟨x, hx⟩ := Option.isSome_iff_exists.1 hx
      obtain ⟨xs, hxs⟩ := Option.isSome_iff_exists.1 hxs
      simp only [Nat.add_zero] at hx
      simp [collect, hx, hxs]

end Sys2Proof.Machine
end

