-- ==== Sys2Proof/Laws/Channel.lean ====
section
/-! SUPPORT. Where payload bits live (spec R110 to R114) and what the scan of ENCODE does to the PIX memory (spec R122, R123). -/

namespace Sys2Proof.Machine

/-- `AddrOf` in the arithmetic terms of R110. -/
theorem addrOf_eq (i : Nat) : addrOf i = 4 * (i / 3) + i % 3 := rfl

/-- Distinct bit indices have distinct addresses (R110). -/
theorem addrOf_inj {i j : Nat} (h : addrOf i = addrOf j) : i = j := by
  simp only [addrOf_eq] at h
  omega

/-- An address of a payload bit is none of an alpha byte (R114). -/
theorem addrOf_mod (i : Nat) : addrOf i % 4 ≠ 3 := by
  simp only [addrOf_eq]
  omega

/-- The payload bits of `n` pixels lie inside the first `4 * n` bytes (R110). -/
theorem addrOf_lt {i n : Nat} (h : i < 3 * n) : addrOf i < 4 * n := by
  simp only [addrOf_eq]
  omega

/-- Bit 0 of the byte ENCODE writes is the frame bit, bits 7:1 are the old ones (R112). -/
theorem withLSB_getLsbD (old : Byte) (b : Bool) (j : Nat) :
    (withLSB old b).getLsbD j = if j = 0 then b else old.getLsbD j := by
  revert old b
  by_cases hj : j < 8
  · have : ∀ j : Fin 8, ∀ old : Byte, ∀ b : Bool,
        (withLSB old b).getLsbD j = if (j : Nat) = 0 then b else old.getLsbD j := by
      decide +revert
    exact this ⟨j, hj⟩
  · intro old b
    rw [BitVec.getLsbD_of_ge _ _ (by omega), BitVec.getLsbD_of_ge _ _ (by omega), if_neg (by omega)]

/-- Bit 0 as `ExtractLSB` reads it. -/
@[simp] theorem withLSB_getElem_zero (old : Byte) (b : Bool) : (withLSB old b)[0] = b := withLSB_getLsbD old b 0

/-- Inserting the same bit twice is inserting it once (R117). -/
theorem withLSB_withLSB (old : Byte) (b c : Bool) : withLSB (withLSB old b) c = withLSB old c := by
  apply BitVec.eq_of_getLsbD_eq
  intro j _
  simp only [withLSB_getLsbD]
  split <;> rfl

/-- What the insertion of one bit does, and when it has no meaning. -/
theorem insertLSB_eq_some {m m' : Memory} {a : Nat} {b : Bool} :
    insertLSB m a b = some m' ↔ ∃ old, m.get a = some old ∧ m' = m.set a (withLSB old b) := by
  simp [insertLSB, eq_comm]

/-- Everything the scan does when it succeeds: each byte at `AddrOf(i + t)` was defined and got bit `t` in its bit 0, every
other byte is as before, and the canonical form and the range are kept. -/
theorem insertBits_spec {m m' : Memory} {i : Nat} {bs : List Bool} (h : insertBits m i bs = some m') :
    (∀ t b, bs[t]? = some b → ∃ old, m.get (addrOf (i + t)) = some old ∧
      m'.get (addrOf (i + t)) = some (withLSB old b)) ∧
    (∀ a, (∀ t < bs.length, a ≠ addrOf (i + t)) → m'.get a = m.get a) ∧
    (m.wf → m'.wf) ∧
    (∀ c ∈ m', (∃ t < bs.length, c.1 = addrOf (i + t)) ∨ c ∈ m) := by
  induction bs generalizing m i with
  | nil =>
    obtain rfl : m = m' := Option.some.inj h
    simp
  | cons b bs ih =>
    simp only [insertBits] at h
    split at h
    case h_2 => cases h
    case h_1 m₁ hm₁ =>
      obtain ⟨old, hold, rfl⟩ := insertLSB_eq_some.1 hm₁
      obtain ⟨hbits, hrest, hwf, hmem⟩ := ih h
      have hne : ∀ t, addrOf i ≠ addrOf (i + 1 + t) := fun t heq => by
        have := addrOf_inj heq
        omega
      refine ⟨?_, ?_, fun hm => hwf (Memory.wf_set hm _ _), ?_⟩
      · intro t c hc
        cases t with
        | zero =>
          obtain rfl : b = c := by simpa using hc
          exact ⟨old, hold, by rw [Nat.add_zero, hrest _ fun t _ => hne t, Memory.get_set_self]⟩
        | succ t =>
          rw [List.getElem?_cons_succ] at hc
          obtain ⟨o, ho, ho'⟩ := hbits t c hc
          rw [show i + (t + 1) = i + 1 + t by omega]
          exact ⟨o, by rwa [Memory.get_set_ne _ _ (hne t).symm] at ho, ho'⟩
      · intro a ha
        rw [hrest a fun t ht => by
            have := ha (t + 1) (by simp; omega)
            rwa [show i + (t + 1) = i + 1 + t by omega] at this,
          Memory.get_set_ne _ _ (by simpa using ha 0 (by simp))]
      · intro c hc
        rcases hmem c hc with ⟨t, ht, heq⟩ | hc
        · exact .inl ⟨t + 1, by simp; omega, by rwa [show i + (t + 1) = i + 1 + t by omega]⟩
        · rcases Memory.mem_set hc with rfl | hc
          · exact .inl ⟨0, by simp, rfl⟩
          · exact .inr hc

/-- The scan has a result exactly when every byte it touches is defined (R202). -/
theorem insertBits_isSome {m : Memory} {i : Nat} {bs : List Bool} :
    (insertBits m i bs).isSome = true ↔ ∀ t < bs.length, (m.get (addrOf (i + t))).isSome = true := by
  induction bs generalizing m i with
  | nil => simp [insertBits]
  | cons b bs ih =>
    have hne : ∀ t, addrOf (i + 1 + t) ≠ addrOf i := fun t heq => by
      have := addrOf_inj heq
      omega
    cases hget : m.get (addrOf i) with
    | none =>
      have : insertLSB m (addrOf i) b = none := by simp [insertLSB, hget]
      simp only [insertBits, this, Option.isSome_none, Bool.false_eq_true, List.length_cons, false_iff]
      intro hall
      have := hall 0 (by omega)
      simp [hget] at this
    | some old =>
      have : insertLSB m (addrOf i) b = some (m.set (addrOf i) (withLSB old b)) := by simp [insertLSB, hget]
      simp only [insertBits, this, ih, Memory.get_set_ne _ _ (hne _), List.length_cons]
      constructor
      · intro hall t ht
        cases t with
        | zero => simp [hget]
        | succ t =>
          rw [show i + (t + 1) = i + 1 + t by omega]
          exact hall t (by omega)
      · intro hall t ht
        rw [show i + 1 + t = i + (t + 1) by omega]
        exact hall (t + 1) (by omega)

/-- The LSB stream, entry by entry (R115). -/
theorem lsbStream_eq_some {m : Memory} {n : Nat} {S : List Bool} :
    lsbStream m n = some S ↔ S.length = 3 * n ∧ ∀ i < 3 * n, extractLSB m (addrOf i) = S[i]? := by
  simp [lsbStream, collect_eq_some]

/-- The stream can be collected exactly when each of its bytes is defined (R141, R202). -/
theorem lsbStream_isSome {m : Memory} {n : Nat} :
    (lsbStream m n).isSome = true ↔ ∀ i < 3 * n, (m.get (addrOf i)).isSome = true := by
  simp [lsbStream, collect_isSome, extractLSB]

end Sys2Proof.Machine
end

