-- ==== Sys2Proof/Laws/Serializer.lean ====
section
/-! SUPPORT. Lengths and entries of the serializer's sequences (spec R90 to R95) and the two equations of the delimiter search
(spec R142). -/

namespace Sys2Proof.Machine

@[simp] theorem byteBits_length (b : Byte) : (byteBits b).length = 8 := rfl

/-- R90, entry by entry. -/
theorem byteBits_getElem? (b : Byte) {t : Nat} (h : t < 8) : (byteBits b)[t]? = some (b.getLsbD (7 - t)) := by
  simp [byteBits, h]

@[simp] theorem toBits_nil : toBits [] = [] := rfl

theorem toBits_cons (b : Byte) (m : List Byte) : toBits (b :: m) = byteBits b ++ toBits m := rfl

@[simp] theorem toBits_length (m : List Byte) : (toBits m).length = 8 * m.length := by
  induction m with
  | nil => rfl
  | cons b m ih => simp [toBits_cons, ih]; omega

/-- R91, entry by entry. -/
theorem toBits_getElem? (m : List Byte) (j t : Nat) (ht : t < 8) :
    (toBits m)[8 * j + t]? = m[j]?.map fun b => b.getLsbD (7 - t) := by
  induction m generalizing j with
  | nil => simp
  | cons b m ih =>
    cases j with
    | zero =>
      rw [toBits_cons, List.getElem?_append_left (by simp; omega)]
      simpa using byteBits_getElem? b ht
    | succ j =>
      rw [toBits_cons, List.getElem?_append_right (by simp; omega)]
      simpa [show 8 * (j + 1) + t - 8 = 8 * j + t by omega] using ih j

@[simp] theorem delim_length : delim.length = 16 := rfl

theorem delim_getElem? (t : Nat) : delim[t]? = if t < 15 then some true else if t = 15 then some false else none := by
  rcases Nat.lt_or_ge t 16 with h | h
  · interval_cases t <;> rfl
  · rw [List.getElem?_eq_none (by simpa using h), if_neg (by omega), if_neg (by omega)]

/-- The entries of a frame: the message bits, then the delimiter (R93). -/
theorem frame_getElem?_delim (m : List Byte) (t : Nat) : (frame m)[8 * m.length + t]? = delim[t]? := by
  rw [frame, List.getElem?_append_right (by simp)]
  simp

theorem frame_getElem?_message (m : List Byte) {i : Nat} (h : i < 8 * m.length) : (frame m)[i]? = (toBits m)[i]? :=
  List.getElem?_append_left (by simpa using h)

@[simp] theorem fromBits_length (s : List Bool) : (fromBits s).length = s.length / 8 := by simp [fromBits]

/-- R95, entry by entry. -/
theorem fromBits_getElem? (s : List Bool) {j : Nat} (h : j < s.length / 8) :
    (fromBits s)[j]? = some (byteOfBits (s.drop (8 * j))) := by
  simp [fromBits, h]

/-- The byte made of eight bits, bit by bit (R95). -/
theorem byteOfBits_getLsbD {s : List Bool} (h : 8 ≤ s.length) {t : Nat} (ht : t < 8) :
    s[t]? = some ((byteOfBits s).getLsbD (7 - t)) := by
  obtain ⟨b0, b1, b2, b3, b4, b5, b6, b7, rest, rfl⟩ :
      ∃ b0 b1 b2 b3 b4 b5 b6 b7 rest, s = b0 :: b1 :: b2 :: b3 :: b4 :: b5 :: b6 :: b7 :: rest := by
    match s, h with
    | b0 :: b1 :: b2 :: b3 :: b4 :: b5 :: b6 :: b7 :: rest, _ => exact ⟨b0, b1, b2, b3, b4, b5, b6, b7, rest, rfl⟩
  have key : ∀ b0 b1 b2 b3 b4 b5 b6 b7 : Bool, ∀ t : Fin 8,
      [b0, b1, b2, b3, b4, b5, b6, b7][(t : Nat)]? =
        some ((byteOfBits [b0, b1, b2, b3, b4, b5, b6, b7]).getLsbD (7 - t)) := by
    decide
  have e := key b0 b1 b2 b3 b4 b5 b6 b7 ⟨t, ht⟩
  have e' : byteOfBits (b0 :: b1 :: b2 :: b3 :: b4 :: b5 :: b6 :: b7 :: rest) =
      byteOfBits [b0, b1, b2, b3, b4, b5, b6, b7] := rfl
  rw [e', ← e]
  simp only
  interval_cases t <;> rfl

@[simp] theorem findDelim_nil : findDelim [] = none := rfl

theorem findDelim_cons (b : Bool) (s : List Bool) :
    findDelim (b :: s) = if (b :: s).take 16 = delim then some 0 else (findDelim s).map (· + 1) := rfl

end Sys2Proof.Machine
end

