-- ==== Sys2Proof/Laws/State.lean ====
section
/-! SUPPORT. One lemma per field per update of State, each true by rfl, so that no proof unfolds a record update, and what STATE
reads after each of them. -/

namespace Sys2Proof.Machine

variable (s : State)

@[simp] theorem State.issue_cfg (w : Word) : (s.issue w).cfg = s.cfg := rfl
@[simp] theorem State.issue_cmd (w : Word) : (s.issue w).cmd = w := rfl
@[simp] theorem State.issue_status (w : Word) : (s.issue w).status = statusBusy := rfl
@[simp] theorem State.issue_pixcnt (w : Word) : (s.issue w).pixcnt = s.pixcnt := rfl
@[simp] theorem State.issue_msglen (w : Word) : (s.issue w).msglen = s.msglen := rfl
@[simp] theorem State.issue_dpos (w : Word) : (s.issue w).dpos = s.dpos := rfl
@[simp] theorem State.issue_pix (w : Word) : (s.issue w).pix = s.pix := rfl
@[simp] theorem State.issue_msg (w : Word) : (s.issue w).msg = s.msg := rfl
@[simp] theorem State.issue_turns (w : Word) : (s.issue w).turns = s.turns := rfl
@[simp] theorem State.issue_replies (w : Word) : (s.issue w).replies = s.replies := rfl

@[simp] theorem State.finish_cfg (d : Nat) : (s.finish d).cfg = s.cfg := rfl
@[simp] theorem State.finish_cmd (d : Nat) : (s.finish d).cmd = s.cmd := rfl
@[simp] theorem State.finish_status (d : Nat) : (s.finish d).status = statusDone := rfl
@[simp] theorem State.finish_pixcnt (d : Nat) : (s.finish d).pixcnt = s.pixcnt := rfl
@[simp] theorem State.finish_msglen (d : Nat) : (s.finish d).msglen = s.msglen := rfl
@[simp] theorem State.finish_dpos (d : Nat) : (s.finish d).dpos = BitVec.ofNat 32 d := rfl
@[simp] theorem State.finish_pix (d : Nat) : (s.finish d).pix = s.pix := rfl
@[simp] theorem State.finish_msg (d : Nat) : (s.finish d).msg = s.msg := rfl
@[simp] theorem State.finish_turns (d : Nat) : (s.finish d).turns = s.turns := rfl
@[simp] theorem State.finish_replies (d : Nat) : (s.finish d).replies = s.replies := rfl

@[simp] theorem State.raise_cfg (k : Failure) : (s.raise k).cfg = s.cfg := rfl
@[simp] theorem State.raise_cmd (k : Failure) : (s.raise k).cmd = s.cmd := rfl
@[simp] theorem State.raise_status (k : Failure) : (s.raise k).status = statusOfFailure k := rfl
@[simp] theorem State.raise_pixcnt (k : Failure) : (s.raise k).pixcnt = s.pixcnt := rfl
@[simp] theorem State.raise_msglen (k : Failure) : (s.raise k).msglen = s.msglen := rfl
@[simp] theorem State.raise_dpos (k : Failure) : (s.raise k).dpos = 0#32 := rfl
@[simp] theorem State.raise_pix (k : Failure) : (s.raise k).pix = s.pix := rfl
@[simp] theorem State.raise_msg (k : Failure) : (s.raise k).msg = s.msg := rfl
@[simp] theorem State.raise_turns (k : Failure) : (s.raise k).turns = s.turns := rfl
@[simp] theorem State.raise_replies (k : Failure) : (s.raise k).replies = s.replies := rfl

@[simp] theorem State.powerReset_cfg : (s.powerReset).cfg = s.cfg := rfl
@[simp] theorem State.powerReset_cmd : (s.powerReset).cmd = 0#32 := rfl
@[simp] theorem State.powerReset_status : (s.powerReset).status = 0#32 := rfl
@[simp] theorem State.powerReset_pixcnt : (s.powerReset).pixcnt = 0#32 := rfl
@[simp] theorem State.powerReset_msglen : (s.powerReset).msglen = 0#32 := rfl
@[simp] theorem State.powerReset_dpos : (s.powerReset).dpos = 0#32 := rfl
@[simp] theorem State.powerReset_pix : (s.powerReset).pix = [] := rfl
@[simp] theorem State.powerReset_msg : (s.powerReset).msg = [] := rfl
@[simp] theorem State.powerReset_turns : (s.powerReset).turns = s.turns := rfl
@[simp] theorem State.powerReset_replies : (s.powerReset).replies = s.replies := rfl

@[simp] theorem State.reply_cfg (r : Reply) : (s.reply r).cfg = s.cfg := rfl
@[simp] theorem State.reply_cmd (r : Reply) : (s.reply r).cmd = s.cmd := rfl
@[simp] theorem State.reply_status (r : Reply) : (s.reply r).status = s.status := rfl
@[simp] theorem State.reply_pixcnt (r : Reply) : (s.reply r).pixcnt = s.pixcnt := rfl
@[simp] theorem State.reply_msglen (r : Reply) : (s.reply r).msglen = s.msglen := rfl
@[simp] theorem State.reply_dpos (r : Reply) : (s.reply r).dpos = s.dpos := rfl
@[simp] theorem State.reply_pix (r : Reply) : (s.reply r).pix = s.pix := rfl
@[simp] theorem State.reply_msg (r : Reply) : (s.reply r).msg = s.msg := rfl
@[simp] theorem State.reply_turns (r : Reply) : (s.reply r).turns = s.turns := rfl
@[simp] theorem State.reply_replies (r : Reply) : (s.reply r).replies = r :: s.replies := rfl

@[simp] theorem State.afterTurn_cfg (rest : List Turn) : (s.afterTurn rest).cfg = s.cfg := rfl
@[simp] theorem State.afterTurn_cmd (rest : List Turn) : (s.afterTurn rest).cmd = s.cmd := rfl
@[simp] theorem State.afterTurn_status (rest : List Turn) : (s.afterTurn rest).status = s.status := rfl
@[simp] theorem State.afterTurn_pixcnt (rest : List Turn) : (s.afterTurn rest).pixcnt = s.pixcnt := rfl
@[simp] theorem State.afterTurn_msglen (rest : List Turn) : (s.afterTurn rest).msglen = s.msglen := rfl
@[simp] theorem State.afterTurn_dpos (rest : List Turn) : (s.afterTurn rest).dpos = s.dpos := rfl
@[simp] theorem State.afterTurn_pix (rest : List Turn) : (s.afterTurn rest).pix = s.pix := rfl
@[simp] theorem State.afterTurn_msg (rest : List Turn) : (s.afterTurn rest).msg = s.msg := rfl
@[simp] theorem State.afterTurn_turns (rest : List Turn) : (s.afterTurn rest).turns = rest := rfl
@[simp] theorem State.afterTurn_replies (rest : List Turn) : (s.afterTurn rest).replies = s.replies := rfl

@[simp] theorem latchCommand_cfg (w : Word) : (latchCommand s w).cfg = s.cfg := rfl
@[simp] theorem latchCommand_cmd (w : Word) : (latchCommand s w).cmd = w := rfl
@[simp] theorem latchCommand_status (w : Word) : (latchCommand s w).status = statusBusy := rfl
@[simp] theorem latchCommand_pixcnt (w : Word) : (latchCommand s w).pixcnt = s.pixcnt := rfl
@[simp] theorem latchCommand_msglen (w : Word) : (latchCommand s w).msglen = s.msglen := rfl
@[simp] theorem latchCommand_dpos (w : Word) : (latchCommand s w).dpos = s.dpos := rfl
@[simp] theorem latchCommand_pix (w : Word) : (latchCommand s w).pix = s.pix := rfl
@[simp] theorem latchCommand_msg (w : Word) : (latchCommand s w).msg = s.msg := rfl
@[simp] theorem latchCommand_turns (w : Word) : (latchCommand s w).turns = .engine :: s.turns := rfl
@[simp] theorem latchCommand_replies (w : Word) : (latchCommand s w).replies = s.replies := rfl

@[simp] theorem State.resetOf_cfg (c : Config) : (State.resetOf c).cfg = c := rfl
@[simp] theorem State.resetOf_cmd (c : Config) : (State.resetOf c).cmd = 0#32 := rfl
@[simp] theorem State.resetOf_status (c : Config) : (State.resetOf c).status = 0#32 := rfl
@[simp] theorem State.resetOf_pixcnt (c : Config) : (State.resetOf c).pixcnt = 0#32 := rfl
@[simp] theorem State.resetOf_msglen (c : Config) : (State.resetOf c).msglen = 0#32 := rfl
@[simp] theorem State.resetOf_dpos (c : Config) : (State.resetOf c).dpos = 0#32 := rfl
@[simp] theorem State.resetOf_pix (c : Config) : (State.resetOf c).pix = [] := rfl
@[simp] theorem State.resetOf_msg (c : Config) : (State.resetOf c).msg = [] := rfl
@[simp] theorem State.resetOf_turns (c : Config) : (State.resetOf c).turns = [] := rfl
@[simp] theorem State.resetOf_replies (c : Config) : (State.resetOf c).replies = [] := rfl

@[simp] theorem stateField_zero : stateField 0#32 = .idle := by decide
@[simp] theorem stateField_busy : stateField statusBusy = .busy := by decide
@[simp] theorem stateField_done : stateField statusDone = .done := by decide

/-- Every failure's STATUS has STATE ERROR (R166, R23). -/
@[simp] theorem stateField_failure (k : Failure) : stateField (statusOfFailure k) = .error := by
  rcases k with ⟨ei, em⟩ | _ | _ | _
  · cases ei <;> cases em <;> decide
  all_goals decide

/-- ERR of a failure is its code (R160). -/
theorem errField_failure (k : Failure) : errField (statusOfFailure k) = BitVec.ofNat 3 k.code := by
  rcases k with ⟨ei, em⟩ | _ | _ | _
  · cases ei <;> cases em <;> decide
  all_goals decide

@[simp] theorem State.issue_runState (w : Word) : (s.issue w).runState = .busy := stateField_busy
@[simp] theorem State.finish_runState (d : Nat) : (s.finish d).runState = .done := stateField_done
@[simp] theorem State.raise_runState (k : Failure) : (s.raise k).runState = .error := stateField_failure k
@[simp] theorem State.powerReset_runState : s.powerReset.runState = .idle := stateField_zero
@[simp] theorem State.reply_runState (r : Reply) : (s.reply r).runState = s.runState := rfl
@[simp] theorem State.afterTurn_runState (rest : List Turn) : (s.afterTurn rest).runState = s.runState := rfl
@[simp] theorem latchCommand_runState (w : Word) : (latchCommand s w).runState = .busy := stateField_busy
@[simp] theorem State.afterTurn_self : s.afterTurn s.turns = s := rfl

end Sys2Proof.Machine
end

