-- ==== Sys2Proof/Laws/Commands.lean ====
section
/-! SUPPORT. Everything ENCODE, DECODE and the engine can do (spec R120, R140, R164), said once: the cases of a next state and
the cases of a refusal. Later proofs cite these and do not unfold the meanings. -/

namespace Sys2Proof.Machine

/-- Reading the message, entry by entry. -/
theorem State.message_eq_some {s : State} {m : List Byte} :
    s.message = some m ↔ m.length = s.messageLength ∧ MessageIs s.msg m := by
  simp only [State.message, collect_eq_some, Nat.zero_add, MessageIs]
  constructor <;> rintro ⟨hlen, h⟩ <;> exact ⟨hlen, by simpa [hlen] using h⟩

theorem State.message_isSome {s : State} : s.message.isSome = true ↔ MessageDefined s.msg s.messageLength := by
  simp [State.message, collect_isSome, MessageDefined]

/-- Reading the stream, entry by entry. -/
theorem State.stream_eq_some {s : State} {S : List Bool} :
    s.stream = some S ↔ S.length = 3 * s.pixelCount ∧ StreamIs s.pix S := by
  simp only [State.stream, lsbStream_eq_some, StreamIs]
  constructor <;> rintro ⟨hlen, h⟩ <;> exact ⟨hlen, by simpa [hlen] using h⟩

theorem State.stream_isSome {s : State} : s.stream.isSome = true ↔ PayloadDefined s.pix (3 * s.pixelCount) :=
  lsbStream_isSome

/-- ENCODE's operand range, in words (R78). -/
theorem State.encodeInRange_iff {s : State} :
    s.encodeInRange = true ↔ s.pixcnt.toNat ≤ s.cfg.pixMax ∧ s.msglen.toNat ≤ s.cfg.msgMax := by
  simp [State.encodeInRange]

/-- DECODE's operand range, in words (R78). -/
theorem State.decodeInRange_iff {s : State} : s.decodeInRange = true ↔ s.pixcnt.toNat ≤ s.cfg.pixMax := by
  simp [State.decodeInRange]

@[simp] theorem frame_length (m : List Byte) : (frame m).length = 8 * m.length + 16 := by simp [frame]

/-- ENCODE's three tests in one word (R121). -/
theorem encodeAccepts_iff {s : State} :
    EncodeAccepts s ↔ s.encodeInRange = true ∧ ¬ (s.pixelCount = 0 ∨ s.messageLength = 0) ∧
      capOK s.pixelCount s.messageLength = true := by
  have hcap : capOK s.pixelCount s.messageLength = true ↔ 8 * s.messageLength + 16 ≤ 3 * s.pixelCount :=
    decide_eq_true_iff
  simp only [EncodeAccepts, State.encodeInRange, hcap, Bool.and_eq_true, decide_eq_true_eq]
  tauto

/-- ENCODE that passes its tests is the scan (R120). -/
theorem execEncode_of_accepts {s : State} (h : EncodeAccepts s) : execEncode s = placeMessage s := by
  obtain ⟨hr, he, hc⟩ := encodeAccepts_iff.1 h
  simp [execEncode, hr, he, hc]

/-- Everything ENCODE can do when it answers a next state: it fails with one of its three codes, or it places the frame. -/
theorem execEncode_next {s t : State} (h : execEncode s = .next t) :
    (s.encodeInRange = false ∧ t = s.raise .illegalCommand) ∨
    (s.encodeInRange = true ∧ (s.pixelCount = 0 ∨ s.messageLength = 0) ∧
      t = s.raise (.emptyInput (decide (s.pixelCount = 0)) (decide (s.messageLength = 0)))) ∨
    (s.encodeInRange = true ∧ ¬ (s.pixelCount = 0 ∨ s.messageLength = 0) ∧
      capOK s.pixelCount s.messageLength = false ∧ t = s.raise .capacityExceeded) ∨
    (EncodeAccepts s ∧ ∃ m pix, s.message = some m ∧ insertBits s.pix 0 (frame m) = some pix ∧
      t = ({ s with pix := pix } : State).finish (8 * s.messageLength)) := by
  unfold execEncode at h
  split at h
  · cases h; exact .inl ⟨‹_›, rfl⟩
  · have hr : s.encodeInRange = true := by simpa using ‹¬ s.encodeInRange = false›
    split at h
    · cases h; exact .inr (.inl ⟨hr, ‹_›, rfl⟩)
    · split at h
      · cases h; exact .inr (.inr (.inl ⟨hr, ‹_›, ‹_›, rfl⟩))
      · refine .inr (.inr (.inr ⟨encodeAccepts_iff.2 ⟨hr, ‹_›, by simpa using ‹¬ capOK _ _ = false›⟩, ?_⟩))
        unfold placeMessage at h
        split at h
        · cases h
        · split at h
          · cases h
          · cases h; exact ⟨_, _, ‹_›, ‹_›, rfl⟩

/-- When ENCODE is refused: it passes its tests and would read an undefined byte (R202). -/
theorem execEncode_refused {s : State} {r : Refusal} (h : execEncode s = .refused r) :
    EncodeAccepts s ∧ ((s.message = none ∧ r = .undefinedByte .msg) ∨
      ∃ m, s.message = some m ∧ insertBits s.pix 0 (frame m) = none ∧ r = .undefinedByte .pix) := by
  by_cases hacc : EncodeAccepts s
  · refine ⟨hacc, ?_⟩
    rw [execEncode_of_accepts hacc] at h
    unfold placeMessage at h
    split at h
    · cases h; exact .inl ⟨‹_›, rfl⟩
    · split at h
      · cases h; exact .inr ⟨_, ‹_›, ‹_›, rfl⟩
      · cases h
  · exfalso
    rw [encodeAccepts_iff] at hacc
    unfold execEncode at h
    split at h
    · cases h
    · split at h
      · cases h
      · split at h
        · cases h
        · exact hacc ⟨by simpa using ‹¬ s.encodeInRange = false›, ‹_›, by simpa using ‹¬ capOK _ _ = false›⟩

/-- Everything DECODE can do when it answers a next state: it fails with one of its two codes, or it delivers the message
before the first delimiter. -/
theorem execDecode_next {s t : State} (h : execDecode s = .next t) :
    (s.decodeInRange = false ∧ t = s.raise .illegalCommand) ∨
    (s.decodeInRange = true ∧ ∃ S, s.stream = some S ∧
      ((findDelim S = none ∧ t = s.raise .noHiddenMessage) ∨
       ∃ k, findDelim S = some k ∧
        ((s.cfg.strictK8 = true ∧ k % 8 ≠ 0 ∧ t = s.raise .noHiddenMessage) ∨
         (¬ (s.cfg.strictK8 = true ∧ k % 8 ≠ 0) ∧ t = deliverMessage s S k)))) := by
  unfold execDecode at h
  split at h
  · cases h; exact .inl ⟨‹_›, rfl⟩
  · refine .inr ⟨by simpa using ‹¬ s.decodeInRange = false›, ?_⟩
    split at h
    · cases h
    · rename_i S hS
      refine ⟨S, hS, ?_⟩
      cases h
      unfold endDecode
      split
      · exact .inl ⟨‹_›, rfl⟩
      · rename_i k hk
        refine .inr ⟨k, hk, ?_⟩
        split
        · exact .inl ⟨(‹_ ∧ _› : _ ∧ _).1, (‹_ ∧ _› : _ ∧ _).2, rfl⟩
        · exact .inr ⟨‹_›, rfl⟩

/-- When DECODE is refused: it would read an undefined byte (R202). -/
theorem execDecode_refused {s : State} {r : Refusal} (h : execDecode s = .refused r) :
    s.decodeInRange = true ∧ s.stream = none ∧ r = .undefinedByte .pix := by
  unfold execDecode at h
  split at h
  · cases h
  · refine ⟨by simpa using ‹¬ s.decodeInRange = false›, ?_⟩
    split at h
    · cases h; exact ⟨‹_›, rfl⟩
    · cases h

/-- Everything the engine's step can do: a reserved word's command fails, or the command's meaning answers (R74, R75). -/
theorem engineStep_cases (s : State) :
    (∃ e, decodeCmd s.cmd = .error e ∧ engineStep s = .next (s.raise .illegalCommand)) ∨
    (∃ i, decodeCmd s.cmd = .ok i ∧ engineStep s = exec i s) := by
  unfold engineStep
  split
  · exact .inr ⟨_, ‹_›, rfl⟩
  · exact .inl ⟨_, ‹_›, rfl⟩

end Sys2Proof.Machine
end

