-- ==== Sys2Proof/Laws/HostProgram.lean ====
section
/-! SUPPORT. What the host's transactions amount to when it makes them one after the other (spec R63, R89): a call's writes, in
any order, and its reads. -/

namespace Sys2Proof.Machine

@[simp] theorem andThen_next {α β : Type} (a : α) (f : α → Host.Outcome β Fault Refusal) : andThen (.next a) f = f a := rfl

@[simp] theorem andThen_refused {α β : Type} (r : Refusal) (f : α → Host.Outcome β Fault Refusal) :
    andThen (.refused r) f = .refused r := rfl

theorem andThen_eq_next {α β : Type} {o : Host.Outcome α Fault Refusal} {f : α → Host.Outcome β Fault Refusal} {b : β} :
    andThen o f = .next b ↔ ∃ a, o = .next a ∧ f a = .next b := by
  cases o with
  | next a => simp
  | fault r => exact nomatch r
  | refused r => simp

@[simp] theorem State.schedule_turns (s : State) (x : Transaction) : (s.schedule x).turns = .host x :: s.turns := rfl
@[simp] theorem State.schedule_runState (s : State) (x : Transaction) : (s.schedule x).runState = s.runState := rfl
@[simp] theorem State.schedule_afterTurn (s : State) (x : Transaction) : (s.schedule x).afterTurn s.turns = s := rfl

/-- A transaction made while STATE is not BUSY is the transaction itself, in one step (R80 to R86). -/
theorem makeTransaction_of_not_busy {s : State} (h : s.runState ≠ .busy) (x : Transaction) :
    makeTransaction x s = hostAct x s := by
  rw [makeTransaction, if_neg fun hx => h hx.2]
  simp [step, takeTurn, hostTurn, h]

@[simp] theorem makeTransactions_nil (s : State) : makeTransactions [] s = .next s := rfl

theorem makeTransactions_cons (x : Transaction) (xs : List Transaction) (s : State) :
    makeTransactions (x :: xs) s = andThen (makeTransaction x s) (makeTransactions xs) := rfl

theorem makeTransactions_append (xs ys : List Transaction) (s : State) :
    makeTransactions (xs ++ ys) s = andThen (makeTransactions xs s) (makeTransactions ys) := by
  induction xs generalizing s with
  | nil => rfl
  | cons x xs ih =>
    rw [List.cons_append, makeTransactions_cons, makeTransactions_cons]
    cases makeTransaction x s with
    | next t => exact ih t
    | fault r => exact nomatch r
    | refused r => rfl

/-! ### Writes -/

/-- Where a write of a call goes; none for a transaction that is no such write. -/
def Transaction.target : Transaction → Option (Space × Nat)
  | .wr n _ => if n = 2 ∨ n = 3 then some (.reg, n) else none
  | .wrPix a _ => some (.pix, a)
  | .wrMsg j _ => some (.msg, j)
  | .rd _ => none
  | .rdPix _ => none
  | .rdMsg _ => none
  | .poll => none
  | .odd _ => none

/-- The state after the writes of a call: what each of them wrote, and everything else as before. -/
structure Written (ws : List Transaction) (s t : State) : Prop where
  rest : t = { s with pixcnt := t.pixcnt, msglen := t.msglen, pix := t.pix, msg := t.msg }
  pixcnt : ∀ v, .wr 2 v ∈ ws → t.pixcnt = v
  pixcnt_kept : (∀ v, .wr 2 v ∉ ws) → t.pixcnt = s.pixcnt
  msglen : ∀ v, .wr 3 v ∈ ws → t.msglen = v
  msglen_kept : (∀ v, .wr 3 v ∉ ws) → t.msglen = s.msglen
  pix : ∀ a v, .wrPix a v ∈ ws → t.pix.get a = some v
  pix_kept : ∀ a, (∀ v, .wrPix a v ∉ ws) → t.pix.get a = s.pix.get a
  msg : ∀ j v, .wrMsg j v ∈ ws → t.msg.get j = some v
  msg_kept : ∀ j, (∀ v, .wrMsg j v ∉ ws) → t.msg.get j = s.msg.get j

/-- One well-formed write made while STATE is not BUSY (R80, R82, R84). -/
theorem makeTransaction_write {s : State} (hb : s.runState ≠ .busy) {x : Transaction} (hw : x.wellFormed s.cfg = true)
    (ht : x.target.isSome = true) : ∃ t, makeTransaction x s = .next t ∧ Written [x] s t := by
  rw [makeTransaction_of_not_busy hb]
  cases x with
  | wr n v =>
    have hn : n = 2 ∨ n = 3 := by
      by_contra h
      simp [Transaction.target, h] at ht
    rcases hn with rfl | rfl
    · refine ⟨{ s with pixcnt := v }, by simp [hostAct, hostWr, Reg.ofNumber, State.unlessBusy, hb], ?_⟩
      constructor <;> simp [eq_comm]
    · refine ⟨{ s with msglen := v }, by simp [hostAct, hostWr, Reg.ofNumber, State.unlessBusy, hb], ?_⟩
      constructor <;> simp [eq_comm]
  | wrPix a v =>
    have ha : a < 4 * s.cfg.pixMax := by simpa [Transaction.wellFormed] using hw
    refine ⟨{ s with pix := s.pix.set a v }, by simp [hostAct, hostWrPix, State.unlessBusy, hb, ha], ?_⟩
    constructor <;> simp +contextual [Memory.get_set]
  | wrMsg j v =>
    have hj : j < s.cfg.msgMax := by simpa [Transaction.wellFormed] using hw
    refine ⟨{ s with msg := s.msg.set j v }, by simp [hostAct, hostWrMsg, State.unlessBusy, hb, hj], ?_⟩
    constructor <;> simp +contextual [Memory.get_set]
  | rd n => simp [Transaction.target] at ht
  | rdPix a => simp [Transaction.target] at ht
  | rdMsg j => simp [Transaction.target] at ht
  | poll => simp [Transaction.target] at ht
  | odd x => simp [Transaction.target] at ht

/-- One write after others that go elsewhere. -/
theorem Written.cons {x : Transaction} {ws : List Transaction} {s t u : State} (h : Written [x] s t) (h' : Written ws t u)
    (hx : ∀ y ∈ ws, x.target ≠ y.target) : Written (x :: ws) s u := by
  have apart : ∀ y ∈ ws, x.target = y.target → False := fun y hy => hx y hy
  constructor
  · rw [h'.rest, h.rest]
  · rintro v hv
    rcases List.mem_cons.1 hv with rfl | hv
    · rw [h'.pixcnt_kept fun w hw => apart _ hw rfl, h.pixcnt v (by simp)]
    · exact h'.pixcnt v hv
  · intro hv
    rw [h'.pixcnt_kept fun v hw => hv v (.tail _ hw), h.pixcnt_kept fun v hw => hv v (by simp at hw; simp [hw])]
  · rintro v hv
    rcases List.mem_cons.1 hv with rfl | hv
    · rw [h'.msglen_kept fun w hw => apart _ hw rfl, h.msglen v (by simp)]
    · exact h'.msglen v hv
  · intro hv
    rw [h'.msglen_kept fun v hw => hv v (.tail _ hw), h.msglen_kept fun v hw => hv v (by simp at hw; simp [hw])]
  · rintro a v hv
    rcases List.mem_cons.1 hv with rfl | hv
    · rw [h'.pix_kept a fun w hw => apart _ hw rfl, h.pix a v (by simp)]
    · exact h'.pix a v hv
  · intro a hv
    rw [h'.pix_kept a fun v hw => hv v (.tail _ hw), h.pix_kept a fun v hw => hv v (by simp at hw; simp [hw])]
  · rintro a v hv
    rcases List.mem_cons.1 hv with rfl | hv
    · rw [h'.msg_kept a fun w hw => apart _ hw rfl, h.msg a v (by simp)]
    · exact h'.msg a v hv
  · intro a hv
    rw [h'.msg_kept a fun v hw => hv v (.tail _ hw), h.msg_kept a fun v hw => hv v (by simp at hw; simp [hw])]

theorem Written.cfg {ws : List Transaction} {s t : State} (h : Written ws s t) : t.cfg = s.cfg := by rw [h.rest]

theorem Written.runState {ws : List Transaction} {s t : State} (h : Written ws s t) : t.runState = s.runState := by
  rw [h.rest]; rfl

/-- The writes of a call, in any order: well formed, and no two of them to one place (R89). -/
theorem makeTransactions_writes {ws : List Transaction} {s : State} (hb : s.runState ≠ .busy)
    (hw : ∀ x ∈ ws, x.wellFormed s.cfg = true ∧ x.target.isSome = true)
    (hp : ws.Pairwise fun x y => x.target ≠ y.target) : ∃ t, makeTransactions ws s = .next t ∧ Written ws s t := by
  induction ws generalizing s with
  | nil => exact ⟨s, rfl, by constructor <;> simp⟩
  | cons x ws ih =>
    obtain ⟨hx, hp⟩ := List.pairwise_cons.1 hp
    obtain ⟨t, ht, hwt⟩ := makeTransaction_write hb (hw x (by simp)).1 (hw x (by simp)).2
    obtain ⟨u, hu, hwu⟩ := ih (s := t) (by rwa [hwt.runState])
      (fun y hy => by rw [hwt.cfg]; exact hw y (.tail _ hy)) hp
    exact ⟨u, by rw [makeTransactions_cons, ht, andThen_next, hu], hwt.cons hwu hx⟩

/-! ### Reads -/

/-- `RDPIX` of a defined byte while STATE is not BUSY (R83). -/
theorem makeTransaction_rdPix {s : State} {a : Nat} {v : Byte} (hb : s.runState ≠ .busy) (ha : a < 4 * s.cfg.pixMax)
    (hv : s.pix.get a = some v) : makeTransaction (.rdPix a) s = .next (s.reply (.byte v)) := by
  simp [makeTransaction_of_not_busy hb, hostAct, hostRdPix, State.unlessBusy, hb, ha, hv, State.replyByte]

/-- `RDMSG` of a defined byte while STATE is not BUSY (R85). -/
theorem makeTransaction_rdMsg {s : State} {a : Nat} {v : Byte} (hb : s.runState ≠ .busy) (ha : a < s.cfg.msgMax)
    (hv : s.msg.get a = some v) : makeTransaction (.rdMsg a) s = .next (s.reply (.byte v)) := by
  simp [makeTransaction_of_not_busy hb, hostAct, hostRdMsg, State.unlessBusy, hb, ha, hv, State.replyByte]

/-- Reads of defined bytes: each gives its byte and nothing else changes (R83, R85). `read` is `RDPIX` or `RDMSG`, of which
`hread` says what one of them does. -/
theorem makeTransactions_reads {read : Nat → Transaction} {f : Nat → Option Byte} (n : Nat) {i : Nat} {s : State}
    (hread : ∀ r a v, i ≤ a → a < i + n → f a = some v →
      makeTransaction (read a) { s with replies := r } = .next { s with replies := .byte v :: r })
    {bs : List Byte} (hlen : bs.length = n) (hf : ∀ t < n, f (i + t) = bs[t]?) (r : List Reply) :
    makeTransactions ((List.range' i n).map read) { s with replies := r } =
      .next { s with replies := (bs.reverse.map .byte) ++ r } := by
  induction n generalizing i bs r with
  | zero =>
    obtain rfl := List.length_eq_zero_iff.1 hlen
    rfl
  | succ n ih =>
    cases bs with
    | nil => simp at hlen
    | cons b bs =>
      have hb : f i = some b := by simpa using hf 0 (by omega)
      rw [List.range'_succ, List.map_cons, makeTransactions_cons, hread r i b (le_refl _) (by omega) hb, andThen_next,
        ih (fun r a v h1 h2 => hread r a v (by omega) (by omega)) (by simpa using hlen)
          (fun t ht => by
            have := hf (t + 1) (by omega)
            rw [List.getElem?_cons_succ] at this
            rw [← this]
            congr 1
            omega)]
      simp

/-- Reading the pixels back, every byte defined and in range (R83, R89). -/
theorem makeTransactions_readPixels {n : Nat} {s : State} {bs : List Byte} (hb : s.runState ≠ .busy)
    (hn : n ≤ s.cfg.pixMax) (hlen : bs.length = 4 * n) (hf : ∀ a < 4 * n, s.pix.get a = bs[a]?) :
    makeTransactions (readPixels n) s = .next { s with replies := bs.reverse.map .byte ++ s.replies } := by
  rw [readPixels, List.range_eq_range']
  refine makeTransactions_reads (s := s) (f := s.pix.get) (4 * n) (fun r a v _ ha hv => ?_) hlen (by simpa using hf) s.replies
  exact makeTransaction_rdPix (s := { s with replies := r }) hb (by show a < 4 * s.cfg.pixMax; omega) hv

/-- Reading a message, every byte defined and in range (R85, R89). -/
theorem makeTransactions_readMessage {l : Nat} {s : State} {bs : List Byte} (hb : s.runState ≠ .busy)
    (hl : l ≤ s.cfg.msgMax) (hlen : bs.length = l) (hf : ∀ j < l, s.msg.get j = bs[j]?) :
    makeTransactions (readMessage l) s = .next { s with replies := bs.reverse.map .byte ++ s.replies } := by
  rw [readMessage, List.range_eq_range']
  refine makeTransactions_reads (s := s) (f := s.msg.get) l (fun r a v _ ha hv => ?_) hlen (by simpa using hf) s.replies
  exact makeTransaction_rdMsg (s := { s with replies := r }) hb (by show a < s.cfg.msgMax; omega) hv

/-- What the host has read when it read the bytes `bs` last. -/
theorem State.lastBytes_append (s : State) (bs : List Byte) (r : List Reply) :
    ({ s with replies := bs.reverse.map .byte ++ r } : State).lastBytes bs.length = bs := by
  have h : (bs.reverse.map Reply.byte ++ r).take bs.length = bs.reverse.map .byte := by
    rw [List.take_append_of_le_length (by simp)]
    exact List.take_of_length_le (by simp)
  simp only [State.lastBytes, h, ← List.map_reverse, List.reverse_reverse, List.filterMap_map]
  induction bs with
  | nil => rfl
  | cons b bs ih => simp [Reply.byteValue, Function.comp_def]

/-! ### The transactions of a call -/

theorem mem_writePixels {a : Nat} {px : List Byte} {x : Transaction} :
    x ∈ writePixels a px ↔ ∃ t v, px[t]? = some v ∧ x = .wrPix (a + t) v := by
  induction px generalizing a with
  | nil => simp [writePixels]
  | cons b px ih =>
    simp only [writePixels, List.mem_cons, ih]
    constructor
    · rintro (rfl | ⟨t, v, h, rfl⟩)
      · exact ⟨0, b, rfl, rfl⟩
      · exact ⟨t + 1, v, h, by congr 1; omega⟩
    · rintro ⟨t, v, h, rfl⟩
      cases t with
      | zero => cases h; exact .inl rfl
      | succ t => exact .inr ⟨t, v, h, by congr 1; omega⟩

theorem mem_writeMessage {j : Nat} {m : List Byte} {x : Transaction} :
    x ∈ writeMessage j m ↔ ∃ t v, m[t]? = some v ∧ x = .wrMsg (j + t) v := by
  induction m generalizing j with
  | nil => simp [writeMessage]
  | cons b m ih =>
    simp only [writeMessage, List.mem_cons, ih]
    constructor
    · rintro (rfl | ⟨t, v, h, rfl⟩)
      · exact ⟨0, b, rfl, rfl⟩
      · exact ⟨t + 1, v, h, by congr 1; omega⟩
    · rintro ⟨t, v, h, rfl⟩
      cases t with
      | zero => cases h; exact .inl rfl
      | succ t => exact .inr ⟨t, v, h, by congr 1; omega⟩

/-- No two `WRPIX` of a call go to one address. -/
theorem writePixels_apart (a : Nat) (px : List Byte) :
    (writePixels a px).Pairwise fun x y => x.target ≠ y.target := by
  induction px generalizing a with
  | nil => exact .nil
  | cons b px ih =>
    refine List.pairwise_cons.2 ⟨fun y hy => ?_, ih _⟩
    obtain ⟨t, v, -, rfl⟩ := mem_writePixels.1 hy
    simp [Transaction.target]
    omega

/-- No two `WRMSG` of a call go to one address. -/
theorem writeMessage_apart (j : Nat) (m : List Byte) :
    (writeMessage j m).Pairwise fun x y => x.target ≠ y.target := by
  induction m generalizing j with
  | nil => exact .nil
  | cons b m ih =>
    refine List.pairwise_cons.2 ⟨fun y hy => ?_, ih _⟩
    obtain ⟨t, v, -, rfl⟩ := mem_writeMessage.1 hy
    simp [Transaction.target]
    omega

theorem encodeWrites_apart (px m : List Byte) : (encodeWrites px m).Pairwise fun x y => x.target ≠ y.target := by
  rw [encodeWrites, List.pairwise_append, List.pairwise_append]
  refine ⟨⟨writePixels_apart 0 px, writeMessage_apart 0 m, fun x hx y hy => ?_⟩, by simp [Transaction.target],
    fun x hx y hy => ?_⟩
  · obtain ⟨t, v, -, rfl⟩ := mem_writePixels.1 hx
    obtain ⟨t, v, -, rfl⟩ := mem_writeMessage.1 hy
    simp [Transaction.target]
  · rcases List.mem_append.1 hx with hx | hx
    · obtain ⟨t, v, -, rfl⟩ := mem_writePixels.1 hx
      rcases List.mem_pair.1 hy with rfl | rfl <;> simp [Transaction.target]
    · obtain ⟨t, v, -, rfl⟩ := mem_writeMessage.1 hx
      rcases List.mem_pair.1 hy with rfl | rfl <;> simp [Transaction.target]

theorem decodeWrites_apart (px : List Byte) : (decodeWrites px).Pairwise fun x y => x.target ≠ y.target := by
  rw [decodeWrites, List.pairwise_append]
  refine ⟨writePixels_apart 0 px, by simp, fun x hx y hy => ?_⟩
  obtain ⟨t, v, -, rfl⟩ := mem_writePixels.1 hx
  obtain rfl := List.mem_singleton.1 hy
  simp [Transaction.target]

end Sys2Proof.Machine
end

