-- ==== Sys2Proof/Laws/PerInstr.lean ====
section
/-! SUPPORT. Statements made per instruction, about the instruction as syntax: the family `TableWord` says that the encoder's
word, numbered as spec/opcode_table.json numbers it, is read back as the instruction it stands for (spec R72). -/

namespace Sys2Proof.Laws.TableWord

/-- A well-formed command's word is read back as that command (R72). -/
def Statement (i : Instr) : Prop := i.wellFormed = true → decodeTableWord 32 (encode i).toNat = some i

theorem encode : Statement .encode := fun _ => by decide

theorem decode : Statement .decode := fun _ => by decide

end Sys2Proof.Laws.TableWord
end

