-- ==== Sys2Proof/Laws/Step.lean ====
section
/-! SUPPORT. Everything one step can do (spec R12, R63): one inversion lemma for the host's transactions and one for the step.
Invariants are derived from these two. -/

namespace Sys2Proof.Machine

theorem State.unlessBusy_next {s t : State} {o : Host.Outcome State Fault Refusal} (h : s.unlessBusy o = .next t) :
    s.runState ≠ .busy ∧ o = .next t := by
  unfold State.unlessBusy at h
  split at h
  · cases h
  · exact ⟨‹_›, h⟩

/-- Everything a host transaction can do when it answers a next state (R80 to R86, R88): it issues a command, writes PIXCNT,
MSGLEN or one byte, or gives a reply. -/
theorem hostAct_next {x : Transaction} {s t : State} (h : hostAct x s = .next t) :
    (∃ w, x = .wr 0 w ∧ s.runState ≠ .busy ∧ t = s.issue w) ∨
    (∃ v, x = .wr 2 v ∧ s.runState ≠ .busy ∧ t = { s with pixcnt := v }) ∨
    (∃ v, x = .wr 3 v ∧ s.runState ≠ .busy ∧ t = { s with msglen := v }) ∨
    (∃ a v, x = .wrPix a v ∧ s.runState ≠ .busy ∧ a < 4 * s.cfg.pixMax ∧ t = { s with pix := s.pix.set a v }) ∨
    (∃ j v, x = .wrMsg j v ∧ s.runState ≠ .busy ∧ j < s.cfg.msgMax ∧ t = { s with msg := s.msg.set j v }) ∨
    (∃ r, ((∃ n, x = .rd n) ∨ (∃ a, x = .rdPix a) ∨ (∃ j, x = .rdMsg j) ∨ x = .poll) ∧ t = s.reply r) := by
  cases x with
  | wr n v =>
    simp only [hostAct, hostWr] at h
    split at h
    · rename_i hn
      obtain rfl : n = 0 := by
        unfold Reg.ofNumber at hn
        split at hn <;> first | rfl | cases hn
      unfold hostWrCmd at h
      split at h
      · cases h
      · cases h; exact .inl ⟨v, rfl, ‹_›, rfl⟩
    · cases h
    · rename_i hn
      obtain rfl : n = 2 := by
        unfold Reg.ofNumber at hn
        split at hn <;> first | rfl | cases hn
      obtain ⟨hb, h⟩ := State.unlessBusy_next h
      cases h; exact .inr (.inl ⟨v, rfl, hb, rfl⟩)
    · rename_i hn
      obtain rfl : n = 3 := by
        unfold Reg.ofNumber at hn
        split at hn <;> first | rfl | cases hn
      obtain ⟨hb, h⟩ := State.unlessBusy_next h
      cases h; exact .inr (.inr (.inl ⟨v, rfl, hb, rfl⟩))
    · cases h
    · cases h
  | rd n =>
    simp only [hostAct, hostRd] at h
    refine .inr (.inr (.inr (.inr (.inr ?_))))
    split at h
    · cases h; exact ⟨_, .inl ⟨n, rfl⟩, rfl⟩
    · obtain ⟨-, h⟩ := State.unlessBusy_next h
      cases h; exact ⟨_, .inl ⟨n, rfl⟩, rfl⟩
    · cases h
  | wrPix a v =>
    obtain ⟨hb, h⟩ := State.unlessBusy_next h
    split at h
    · cases h; exact .inr (.inr (.inr (.inl ⟨a, v, rfl, hb, ‹_›, rfl⟩)))
    · cases h
  | rdPix a =>
    obtain ⟨-, h⟩ := State.unlessBusy_next h
    split at h
    · unfold State.replyByte at h
      split at h
      · cases h; exact .inr (.inr (.inr (.inr (.inr ⟨_, .inr (.inl ⟨a, rfl⟩), rfl⟩))))
      · cases h
    · cases h
  | wrMsg j v =>
    obtain ⟨hb, h⟩ := State.unlessBusy_next h
    split at h
    · cases h; exact .inr (.inr (.inr (.inr (.inl ⟨j, v, rfl, hb, ‹_›, rfl⟩))))
    · cases h
  | rdMsg j =>
    obtain ⟨-, h⟩ := State.unlessBusy_next h
    split at h
    · unfold State.replyByte at h
      split at h
      · cases h; exact .inr (.inr (.inr (.inr (.inr ⟨_, .inr (.inr (.inl ⟨j, rfl⟩)), rfl⟩))))
      · cases h
    · cases h
  | poll => cases h; exact .inr (.inr (.inr (.inr (.inr ⟨_, .inr (.inr (.inr rfl)), rfl⟩))))
  | odd x => cases h

/-- Everything one step can do when it answers a next state: nothing (no turn, or an engine's turn with nothing latched), the
engine's step, a host transaction, or reset. -/
theorem step_next {s t : State} (h : step s = .next t) :
    (s.runState ≠ .busy ∧ s.turns = [] ∧ t = s) ∨
    (∃ rest, s.runState ≠ .busy ∧ s.turns = .engine :: rest ∧ t = s.afterTurn rest) ∨
    (s.runState = .busy ∧ s.turns = [] ∧ engineStep s = .next t) ∨
    (∃ rest, s.runState = .busy ∧ s.turns = .engine :: rest ∧ engineStep (s.afterTurn rest) = .next t) ∨
    (∃ rest, s.runState = .busy ∧ s.turns = .host .poll :: rest ∧ engineStep s = .next t) ∨
    (∃ x rest, s.turns = .host x :: rest ∧ hostAct x (s.afterTurn rest) = .next t) ∨
    (∃ rest, s.turns = .reset :: rest ∧ t = (s.afterTurn rest).powerReset) := by
  unfold step takeTurn at h
  split at h
  · rename_i hturns
    unfold engineTurn at h
    split at h
    · exact .inr (.inr (.inl ⟨‹_›, hturns, h⟩))
    · cases h; exact .inl ⟨‹_›, hturns, rfl⟩
  · rename_i rest hturns
    unfold engineTurn at h
    split at h
    · exact .inr (.inr (.inr (.inl ⟨rest, ‹_›, hturns, h⟩)))
    · cases h; exact .inr (.inl ⟨rest, ‹_›, hturns, rfl⟩)
  · rename_i x rest hturns
    unfold hostTurn at h
    split at h
    · unfold hostTurnBusy at h
      split at h
      · cases h
      · cases h
      · rename_i u hu
        split at h
        · rename_i hx
          subst hx
          cases h
          exact .inr (.inr (.inr (.inr (.inl ⟨rest, ‹_›, hturns, hu⟩))))
        · exact .inr (.inr (.inr (.inr (.inr (.inl ⟨x, rest, hturns, h⟩)))))
    · exact .inr (.inr (.inr (.inr (.inr (.inl ⟨x, rest, hturns, h⟩)))))
  · rename_i rest hturns
    cases h
    exact .inr (.inr (.inr (.inr (.inr (.inr ⟨rest, hturns, rfl⟩)))))

end Sys2Proof.Machine
end

