-- ==== Sys2Proof/Tests/Slice0.lean ====
section
/-! SUPPORT. The model's own tests: ill-formed terms refused, words written out from the spec's encodings, the spec's vectors
(spec/95_test_vectors.md, whose values are the expected results below), and for each statement a concrete state and operands
that meet its hypotheses. -/

namespace Sys2Proof.Tests

open Sys2Proof.Machine

/-! ### Helpers -/

/-- The outcome is a next state of which `p` holds. -/
def nextIs (p : State → Bool) : Host.Outcome State Fault Refusal → Bool
  | .next t => p t
  | .fault _ => false
  | .refused _ => false

/-- The outcome is the refusal `r`. -/
def refusedWith (r : Refusal) : Host.Outcome State Fault Refusal → Bool
  | .next _ => false
  | .fault _ => false
  | .refused q => decide (q = r)

/-- The call gave `r`. -/
def resultIs (r : CallResult) : Host.Outcome Returned Fault Refusal → Bool
  | .next t => decide (t.result = r)
  | .fault _ => false
  | .refused _ => false

theorem of_resultIs {r : CallResult} {o : Host.Outcome Returned Fault Refusal} (h : resultIs r o = true) :
    ∃ t, o = .next ⟨t, r⟩ := by
  cases o with
  | next t => exact ⟨t.state, by rw [← of_decide_eq_true h]⟩
  | fault f => cases h
  | refused q => cases h

theorem of_nextIs {p : State → Bool} {o : Host.Outcome State Fault Refusal} (h : nextIs p o = true) :
    ∃ t, o = .next t ∧ p t = true := by
  cases o with
  | next t => exact ⟨t, rfl, h⟩
  | fault f => cases h
  | refused r => cases h

/-- A memory whose bytes from address 0 on are `bytes`. -/
def memOf (bytes : List Byte) : Memory := bytes.zipIdx.map fun x => (x.2, x.1)

/-- A BUSY state with parameters `PIXMAX = 16`, `MSGMAX = 8` and the STRICT_K8 given. -/
def busyState (strict : Bool) (cmd pixcnt msglen : Word) (pix msg : List Byte) : State :=
  { State.resetOf ⟨16, 8, strict⟩ with
    cmd := cmd, status := 0x00000001#32, pixcnt := pixcnt, msglen := msglen, pix := memOf pix, msg := memOf msg }

/-- V4.4: eight pixels of FF, message 41. -/
def stateV44 : State := busyState false 1#32 8#32 1#32 (List.replicate 32 0xFF#8) [0x41#8]

/-- V4.6: eleven pixels of 10, message FF FE, which holds the delimiter. -/
def stateV46 : State := busyState false 1#32 11#32 2#32 (List.replicate 44 0x10#8) [0xFF#8, 0xFE#8]

/-- P4: ten pixels, never encoded, whose first delimiter is at offset 11. -/
def bufferP4 : List Byte :=
  [0x80#8, 0x81#8, 0x80#8, 0xFF#8, 0x80#8, 0x80#8, 0x80#8, 0xFF#8, 0x80#8, 0x81#8, 0x81#8, 0xFF#8, 0x80#8, 0x81#8, 0x81#8,
    0xFF#8] ++
  (List.replicate 4 [0x81#8, 0x81#8, 0x81#8, 0xFF#8]).flatten ++
  [0x81#8, 0x81#8, 0x80#8, 0xFF#8, 0x80#8, 0x80#8, 0x80#8, 0xFF#8]

/-- P4's LSB stream, `01000001` `101` `1111111111111110` `000`. -/
def streamP4 : List Bool :=
  [false, true, false, false, false, false, false, true, true, false, true] ++ List.replicate 15 true ++
  [false, false, false, false]

/-- P4's state at the engine's step. -/
def stateP4 (strict : Bool) : State := busyState strict 2#32 10#32 0#32 bufferP4 []

/-- Six pixels whose stream is `111111111111111000`: V5.10. -/
def stateV510 : State := busyState true 2#32 6#32 0#32 (List.replicate 20 0x01#8 ++ List.replicate 4 0x00#8) []

/-- V5.10's LSB stream. -/
def streamV510 : List Bool := List.replicate 15 true ++ [false, false, false]

/-- Six pixels of 00, V5.5's kind: no delimiter. -/
def stateZeros : State := busyState false 2#32 6#32 0#32 (List.replicate 24 0x00#8) []

/-- A block after reset with `turns` scheduled. -/
def idleWith (turns : List Turn) : State := { State.reset with turns := turns }

/-- A block in which an ENCODE with no operands set is latched, with `turns` scheduled. -/
def busyWith (turns : List Turn) : State := { State.reset.issue 1#32 with turns := turns }

/-! ### Well-formedness: each check refuses an ill-formed term -/

theorem test_wf_commands : Instr.wellFormed .encode = true ∧ Instr.wellFormed .decode = true := by decide

theorem test_wf_register_number :
    Transaction.wellFormed Config.reference (.rd 5) = false ∧ Transaction.wellFormed Config.reference (.wr 5 0#32) = false := by
  decide

theorem test_wf_read_only :
    Transaction.wellFormed Config.reference (.wr 1 0#32) = false ∧
      Transaction.wellFormed Config.reference (.wr 4 0#32) = false := by
  decide

theorem test_wf_pix_range :
    Transaction.wellFormed Config.reference (.wrPix 64 0#8) = false ∧
      Transaction.wellFormed Config.reference (.rdPix 64) = false := by
  decide

theorem test_wf_msg_range :
    Transaction.wellFormed Config.reference (.wrMsg 8 0#8) = false ∧
      Transaction.wellFormed Config.reference (.rdMsg 8) = false := by
  decide

theorem test_wf_width : Transaction.wellFormed Config.reference (.odd (.pixWide 0 4)) = false := by decide

theorem test_wf_accepts :
    Transaction.wellFormed Config.reference (.wr 0 1#32) = true ∧ Transaction.wellFormed Config.reference (.rd 4) = true ∧
      Transaction.wellFormed Config.reference (.wrPix 63 0#8) = true ∧
      Transaction.wellFormed Config.reference (.rdMsg 7) = true ∧ Transaction.wellFormed Config.reference .poll = true := by
  decide

theorem test_config_pixMax_bound : ¬ Config.Valid ⟨2 ^ 30, 2 ^ 32 - 1, false⟩ := by decide

theorem test_config_msgMax_bound : ¬ Config.Valid ⟨16, 2 ^ 32, false⟩ := by decide

theorem test_config_msg_holds_output : ¬ Config.Valid ⟨16, 3, false⟩ ∧ Config.Valid ⟨16, 4, false⟩ := by decide

/-! ### Decoding: words written out bit by bit from R72 and V6.9 to V6.13 -/

theorem test_decode_encode_word : decodeCmd 0b00000000000000000000000000000001#32 = .ok .encode := by decide

theorem test_decode_decode_word : decodeCmd 0b00000000000000000000000000000010#32 = .ok .decode := by decide

theorem test_decode_reserved :
    decodeTableWord 32 0 = none ∧ decodeTableWord 32 3 = none ∧ decodeTableWord 32 0x11 = none ∧
      decodeTableWord 32 0x80000002 = none ∧ decodeTableWord 32 0xFFFFFFFF = none := by
  decide

theorem test_decode_table_words :
    decodeTableWord 32 1 = some .encode ∧ decodeTableWord 32 2 = some .decode ∧ decodeTableWord 64 1 = none := by
  decide

/-! ### The functional units: vectors V1 to V3 -/

/-- V1.6. -/
theorem test_frame_hi :
    frame [0x48#8, 0x69#8] =
      [false, true, false, false, true, false, false, false, false, true, true, false, true, false, false, true] ++
        List.replicate 15 true ++ [false] := by
  decide

/-- V1.10, V1.11, V1.12. -/
theorem test_fromBits :
    fromBits [false, true, false, false, false, false, false, true, true, false, true] = [0x41#8] ∧
      fromBits [false, true, true, true, true, true, true] = [] := by
  decide

/-- V1.14, V1.15, V1.16. -/
theorem test_findDelim_in_frames :
    findDelim (frame [0xFF#8, 0xFE#8]) = some 0 ∧ findDelim (frame [0x7F#8, 0xFF#8, 0x00#8]) = some 1 ∧
      findDelim (frame [0x7F#8, 0x7F#8]) = some 16 := by
  decide

/-- R142's examples: sixteen 1 bits, fifteen 1 bits, and 33 ones then a 0. -/
theorem test_findDelim_edges :
    findDelim (List.replicate 16 true) = none ∧ findDelim (List.replicate 15 true) = none ∧
      findDelim (List.replicate 33 true ++ [false]) = some 18 := by
  decide

/-- V2.2 to V2.8 and V2.12. -/
theorem test_capacity :
    capOK 16 4 = true ∧ capOK 16 5 = false ∧ capOK 8 1 = true ∧ capOK 7 1 = false ∧ capOK 13 3 = false ∧
      capOK 14 3 = true ∧ capOK (2 ^ 30 - 1) (2 ^ 29 - 2) = false := by
  decide

/-- The bounds given below V2.12. -/
theorem test_bounds : [1, 2, 3, 4, 7].map nMin = [8, 11, 14, 16, 24] ∧ [16, 8, 100].map lMax = [4, 1, 35] := by decide

/-- V3.1 to V3.4. -/
theorem test_addrOf :
    (List.range 9).map addrOf = [0, 1, 2, 4, 5, 6, 8, 9, 10] ∧ addrOf 31 = 41 ∧ addrOf 47 = 62 ∧ indexOf 41 = some 31 ∧
      indexOf 43 = none := by
  decide

/-- V3.5 to V3.8. -/
theorem test_withLSB :
    withLSB 0x49#8 false = 0x48#8 ∧ withLSB 0x5E#8 true = 0x5F#8 ∧ withLSB 0xFF#8 false = 0xFE#8 ∧
      withLSB 0x00#8 true = 0x01#8 ∧ withLSB 0x42#8 false = 0x42#8 := by
  decide

/-- V3.10. -/
theorem test_lsbStream :
    lsbStream (memOf [0x03#8, 0x0A#8, 0x11#8, 0x18#8, 0x1F#8, 0x26#8, 0x2D#8, 0x34#8]) 2 =
      some [true, false, true, true, false, true] := by
  decide

/-! ### The commands -/

/-- V4.4: every payload byte is written, the alpha bytes stay. -/
theorem test_encode_exact_fit :
    nextIs (fun t => decide (t.status = 0x00000002#32 ∧ t.dpos = 8#32 ∧ t.msglen = 1#32 ∧ t.pix = memOf (
      [0xFE#8, 0xFF#8, 0xFE#8, 0xFF#8, 0xFE#8, 0xFE#8, 0xFE#8, 0xFF#8, 0xFE#8] ++ List.replicate 21 0xFF#8 ++
        [0xFE#8, 0xFF#8]))) (exec .encode stateV44) = true := by
  decide

/-- V6.2 to V6.6: the codes and their priority. -/
theorem test_encode_failures :
    nextIs (fun t => decide (t.status = 0x00000027#32)) (exec .encode (busyState false 1#32 0#32 3#32 [] [])) = true ∧
    nextIs (fun t => decide (t.status = 0x00000047#32)) (exec .encode (busyState false 1#32 16#32 0#32 [] [])) = true ∧
    nextIs (fun t => decide (t.status = 0x0000000B#32)) (exec .encode (busyState false 1#32 16#32 7#32 [] [])) = true ∧
    nextIs (fun t => decide (t.status = 0x00000013#32)) (exec .encode (busyState false 1#32 17#32 0#32 [] [])) = true ∧
    nextIs (fun t => decide (t.status = 0x00000013#32)) (exec .encode (busyState false 1#32 16#32 9#32 [] [])) = true := by
  decide

/-- V5.8, P4: delimiter at 11, one whole byte, three bits dropped. -/
theorem test_decode_unaligned :
    nextIs (fun t => decide (t.status = 0x00000002#32 ∧ t.dpos = 11#32 ∧ t.msglen = 1#32 ∧ t.msg = [(0, 0x41#8)] ∧
      t.pix = memOf bufferP4)) (exec .decode (stateP4 false)) = true := by
  decide

/-- V5.9 and V5.10: STRICT_K8 1 refuses offset 11 with NoHiddenMessage and accepts offset 0. -/
theorem test_decode_strict :
    nextIs (fun t => decide (t.status = 0x0000000F#32 ∧ t.dpos = 0#32 ∧ t.msglen = 0#32 ∧ t.msg = []))
      (exec .decode (stateP4 true)) = true ∧
    nextIs (fun t => decide (t.status = 0x00000002#32 ∧ t.dpos = 0#32 ∧ t.msglen = 0#32 ∧ t.msg = []))
      (exec .decode stateV510) = true := by
  decide

/-- V6.1, V5.7, V6.10 and P5: the first command after reset, ENCODE, DECODE and a reserved word, run by the next step. -/
theorem test_first_command_after_reset :
    nextIs (fun t => decide (t = { State.reset.issue 1#32 with status := 0x00000067#32 }))
      (step (State.reset.withFetchWord 32 1)) = true ∧
    nextIs (fun t => decide (t = { State.reset.issue 2#32 with status := 0x0000000F#32 }))
      (step (State.reset.withFetchWord 32 2)) = true ∧
    nextIs (fun t => decide (t = { State.reset.issue 3#32 with status := 0x00000013#32 }))
      (step (State.reset.withFetchWord 32 3)) = true := by
  decide

/-! ### Hazards: V7 -/

/-- V7.2, V7.7, V7.8 and R206: refused when not BUSY. -/
theorem test_hazards_idle :
    refusedWith (.undefinedByte .pix) (step (idleWith [.host (.rdPix 0)])) = true ∧
    refusedWith (.readOnlyRegister .status) (step (idleWith [.host (.wr 1 0#32)])) = true ∧
    refusedWith (.outOfRange .pix 64) (step (idleWith [.host (.wrPix 64 0#8)])) = true ∧
    refusedWith (.oddAccess (.pixWide 0 4)) (step (idleWith [.host (.odd (.pixWide 0 4))])) = true := by
  decide

/-- V7.3, V7.4: refused while BUSY, while `RD STATUS` returns BUSY. -/
theorem test_hazards_busy :
    refusedWith .accessWhileBusy (step (busyWith [.host (.wrPix 0 0x55#8)])) = true ∧
    refusedWith .issueWhileBusy (step (busyWith [.host (.wr 0 2#32)])) = true ∧
    nextIs (fun t => decide (t.replies = [.word 1#32])) (step (busyWith [.host (.rd 1)])) = true := by
  decide

/-- V7.5 in small: DECODE of one pixel with an undefined byte is refused, and so is `RD STATUS` while it is latched (log 5). -/
theorem test_undefined_byte :
    refusedWith (.undefinedByte .pix) (step (busyState false 2#32 1#32 0#32 [0#8, 0#8] [])) = true ∧
    refusedWith (.undefinedByte .pix)
      (step { busyState false 2#32 1#32 0#32 [0#8, 0#8] [] with turns := [.host (.rd 1)] }) = true := by
  decide

/-- V7.9: reset while BUSY. -/
theorem test_reset_while_busy :
    nextIs (fun t => decide (t = State.resetOf ⟨16, 8, false⟩)) (step { stateV44 with turns := [.reset] }) = true := by
  decide

/-- R89, R11: the calls' transactions, and a character above 255 refused. -/
theorem test_call_transactions :
    decodeWrites [1#8, 2#8, 3#8, 4#8] ++ issueAndPoll .decode =
      [.wrPix 0 1#8, .wrPix 1 2#8, .wrPix 2 3#8, .wrPix 3 4#8, .wr 2 1#32, .wr 0 2#32, .poll] ∧
    (encodeWrites [1#8, 2#8, 3#8, 4#8] [9#8]).drop 4 = [.wrMsg 0 9#8, .wr 2 1#32, .wr 3 1#32] ∧
    textToMessage [72, 105] = some [0x48#8, 0x69#8] ∧ textToMessage [72, 256] = none := by
  decide

/-- V4.4 as a call: the pixels given back. -/
theorem test_encode_call :
    resultIs (.pixels ([0xFE#8, 0xFF#8, 0xFE#8, 0xFF#8, 0xFE#8, 0xFE#8, 0xFE#8, 0xFF#8, 0xFE#8] ++
      List.replicate 21 0xFF#8 ++ [0xFE#8, 0xFF#8])) (encodeCall (List.replicate 32 0xFF#8) [0x41#8] State.reset) = true := by
  decide

/-- P4 as a call, V6.1, V6.4 and V5.7: the message given back, and the failures named by STATUS.ERR. -/
theorem test_call_results :
    resultIs (.message [0x41#8]) (decodeCall bufferP4 State.reset) = true ∧
    resultIs (.failed (.emptyInput true true)) (encodeCall [] [] State.reset) = true ∧
    resultIs (.failed .capacityExceeded) (encodeCall (List.replicate 4 0#8) [0x41#8] State.reset) = true ∧
    resultIs (.failed .noHiddenMessage) (decodeCall [] State.reset) = true := by
  decide

/-! ### Witnesses: for each statement with hypotheses, a state and operands that meet them -/

/-- The latched ENCODE of `busyWith` reads no byte, so it has a meaning. -/
theorem busyWith_ready (turns : List Turn) : CommandReady (busyWith turns) := by
  intro i hi
  have hd : decodeCmd (busyWith turns).cmd = .ok .encode := by
    show decodeCmd 1#32 = _
    decide
  have e := hd.symm.trans hi
  cases e
  exact fun h => absurd rfl h.2.2.1

/-- ENCODE of V4.4 succeeds: the one fact the witnesses about a successful ENCODE share. -/
theorem encode_V44_succeeds : ∃ t, exec .encode stateV44 = .next t ∧ t.runState = .done := by
  obtain ⟨t, h, hp⟩ := of_nextIs (p := fun t => decide (t.runState = .done)) (o := exec .encode stateV44) (by decide)
  exact ⟨t, h, of_decide_eq_true hp⟩

/-- ENCODE of V4.6 succeeds. -/
theorem encode_V46_succeeds : ∃ t, exec .encode stateV46 = .next t ∧ t.runState = .done := by
  obtain ⟨t, h, hp⟩ := of_nextIs (p := fun t => decide (t.runState = .done)) (o := exec .encode stateV46) (by decide)
  exact ⟨t, h, of_decide_eq_true hp⟩

/-- DECODE of P4's buffer succeeds. -/
theorem decode_P4_succeeds : ∃ t, exec .decode (stateP4 false) = .next t ∧ t.runState = .done := by
  obtain ⟨t, h, hp⟩ :=
    of_nextIs (p := fun t => decide (t.runState = .done)) (o := exec .decode (stateP4 false)) (by decide)
  exact ⟨t, h, of_decide_eq_true hp⟩

/-- A DECODE that fails. -/
theorem decode_zeros_fails : ∃ t, exec .decode stateZeros = .next t ∧ t.runState = .error := by
  obtain ⟨t, h, hp⟩ :=
    of_nextIs (p := fun t => decide (t.runState = .error)) (o := exec .decode stateZeros) (by decide)
  exact ⟨t, h, of_decide_eq_true hp⟩

theorem streamIs_P4 (strict : Bool) : StreamIs (stateP4 strict).pix streamP4 := by cases strict <;> decide

theorem firstDelim_P4 : FirstDelimAt streamP4 11 := by decide

theorem witness_ResetComesInAnyState :
    (stateV44.runState = .busy ∧ ({ stateV44 with turns := [.reset] } : State).turns = .reset :: []) ∧
    (idleWith [.reset]).turns = .reset :: [] := by
  decide

theorem witness_DecoderAcceptsExactlyTwoWords :
    (1#32 = 0x00000001#32) ∧ (2#32 = 0x00000002#32) ∧
    (0#32 ≠ 0x00000001#32 ∧ 0#32 ≠ 0x00000002#32) ∧ (3#32 ≠ 0x00000001#32 ∧ 3#32 ≠ 0x00000002#32) ∧
    (0x11#32 ≠ 0x00000001#32 ∧ 0x11#32 ≠ 0x00000002#32) := by
  decide

theorem witness_ReservedWordEndsInIllegalCommand :
    (busyState false 3#32 0#32 0#32 [] []).cmd ≠ 0x00000001#32 ∧ (busyState false 3#32 0#32 0#32 [] []).cmd ≠ 0x00000002#32 := by
  decide

/-- The bounds: one above PIXMAX, one above MSGMAX, exactly at both. -/
theorem witness_OperandOutOfRangeIsIllegal :
    ((busyState false 1#32 17#32 8#32 [] []).cfg.pixMax < (busyState false 1#32 17#32 8#32 [] []).pixcnt.toNat) ∧
    ((busyState false 1#32 16#32 9#32 [] []).cfg.msgMax < (busyState false 1#32 16#32 9#32 [] []).msglen.toNat) ∧
    ((busyState false 1#32 16#32 8#32 [] []).pixcnt.toNat ≤ (busyState false 1#32 16#32 8#32 [] []).cfg.pixMax ∧
      (busyState false 1#32 16#32 8#32 [] []).msglen.toNat ≤ (busyState false 1#32 16#32 8#32 [] []).cfg.msgMax) ∧
    (∃ t, exec .encode (busyState false 1#32 16#32 8#32 [] []) = .next t) ∧
    (∃ t, exec .decode stateZeros = .next t) := by
  refine ⟨by decide, by decide, by decide, ?_, ?_⟩
  · obtain ⟨t, h, -⟩ := of_nextIs (p := fun _ => true) (o := exec .encode (busyState false 1#32 16#32 8#32 [] []))
      (by decide)
    exact ⟨t, h⟩
  · obtain ⟨t, h, -⟩ := decode_zeros_fails
    exact ⟨t, h⟩

theorem witness_BusyStepPerformsTheHeldCommand :
    (busyWith []).runState = .busy ∧ decodeCmd (busyWith []).cmd = .ok .encode ∧ (busyWith []).turns = [] ∧
    (busyWith [.engine]).turns = .engine :: [] ∧ (busyWith [.host .poll]).turns = .host .poll :: [] ∧
    (stateP4 true).runState = .busy ∧ decodeCmd (stateP4 true).cmd = .ok .decode := by
  decide

theorem witness_IdleEngineDoesNothing :
    (idleWith []).runState ≠ .busy ∧ (idleWith []).turns = [] ∧ (idleWith [.engine]).runState ≠ .busy ∧
    (idleWith [.engine]).turns = .engine :: [] := by
  decide

theorem witness_WritingCmdIssuesTheCommand :
    (idleWith [.host (.wr 0 1#32)]).runState ≠ .busy ∧
    (idleWith [.host (.wr 0 1#32)]).turns = .host (.wr 0 1#32) :: [] ∧ decodeCmd 1#32 = .ok .encode ∧
    (∃ e, decodeCmd 3#32 = .error e) := by
  refine ⟨by decide, rfl, rfl, _, rfl⟩

/-- Each register number of the clauses, 5 being the first that does not exist. -/
theorem witness_RegisterWriteTransactions :
    (∀ n ∈ [0, 1, 2, 3, 4, 5], (idleWith [.host (.wr n 7#32)]).turns = .host (.wr n 7#32) :: [] ∧
      (idleWith [.host (.wr n 7#32)]).runState ≠ .busy) ∧
    (busyWith [.host (.wr 2 7#32)]).turns = .host (.wr 2 7#32) :: [] ∧ (busyWith [.host (.wr 2 7#32)]).runState = .busy := by
  decide

theorem witness_RegisterReadTransactions :
    (∀ n ∈ [0, 1, 2, 3, 4], (idleWith [.host (.rd n)]).turns = .host (.rd n) :: [] ∧
      (idleWith [.host (.rd n)]).runState ≠ .busy) ∧
    (busyWith [.host (.rd 1)]).runState = .busy ∧ CommandReady (busyWith [.host (.rd 1)]) ∧
    (busyWith [.host (.rd 0)]).runState = .busy ∧ (busyWith [.host (.rd 0)]).turns = .host (.rd 0) :: [] := by
  exact ⟨by decide, by decide, busyWith_ready _, by decide, rfl⟩

/-- The last byte inside PIX, the first outside, a defined and an undefined byte, and BUSY. -/
theorem witness_PixelTransactions :
    ((idleWith [.host (.wrPix 63 5#8)]).turns = .host (.wrPix 63 5#8) :: [] ∧
      (idleWith [.host (.wrPix 63 5#8)]).runState ≠ .busy ∧ 63 < 4 * (idleWith []).cfg.pixMax) ∧
    4 * (idleWith []).cfg.pixMax ≤ 64 ∧
    (({ stateV44 with status := 0#32, turns := [.host (.rdPix 31)] } : State).pix.get 31 = some 0xFF#8 ∧
      ({ stateV44 with status := 0#32, turns := [.host (.rdPix 31)] } : State).runState ≠ .busy) ∧
    (idleWith [.host (.rdPix 63)]).pix.get 63 = none ∧
    (busyWith [.host (.wrPix 0 5#8)]).runState = .busy ∧ (busyWith [.host (.rdPix 0)]).runState = .busy := by
  decide

/-- The last byte inside MSG, the first outside, a defined and an undefined byte, and BUSY. -/
theorem witness_MessageTransactions :
    ((idleWith [.host (.wrMsg 7 5#8)]).turns = .host (.wrMsg 7 5#8) :: [] ∧
      (idleWith [.host (.wrMsg 7 5#8)]).runState ≠ .busy ∧ 7 < (idleWith []).cfg.msgMax) ∧
    (idleWith []).cfg.msgMax ≤ 8 ∧
    (({ stateV44 with status := 0#32, turns := [.host (.rdMsg 0)] } : State).msg.get 0 = some 0x41#8 ∧
      ({ stateV44 with status := 0#32, turns := [.host (.rdMsg 0)] } : State).runState ≠ .busy) ∧
    (idleWith [.host (.rdMsg 7)]).msg.get 7 = none ∧
    (busyWith [.host (.wrMsg 0 5#8)]).runState = .busy ∧ (busyWith [.host (.rdMsg 0)]).runState = .busy := by
  decide

theorem witness_OnlyStatusMayBeReadWhileBusy :
    (busyWith [.host (.rdPix 0)]).runState = .busy ∧ (busyWith [.host (.rdPix 0)]).turns = .host (.rdPix 0) :: [] ∧
    CommandReady (busyWith [.host (.wr 0 2#32)]) ∧ (busyWith [.host (.wr 0 2#32)]).turns = .host (.wr 0 2#32) :: [] ∧
    CommandReady (busyWith [.host (.rd 1)]) ∧ (busyWith [.host (.rd 1)]).turns = .host (.rd 1) :: [] := by
  exact ⟨by decide, rfl, busyWith_ready _, rfl, busyWith_ready _, rfl⟩

theorem witness_IllFormedTransactionsAreRefused :
    (∀ x ∈ [Transaction.wr 1 0#32, .wr 4 0#32, .wr 5 0#32, .rd 5, .wrPix 64 0#8, .rdPix 64, .wrMsg 8 0#8, .rdMsg 8,
        .odd (.burst .pix 0 4)],
      x.wellFormed (idleWith [.host x]).cfg = false ∧ (idleWith [.host x]).turns = .host x :: [] ∧
      x.wellFormed (busyWith [.host x]).cfg = false ∧ (busyWith [.host x]).turns = .host x :: []) := by
  decide

/-- A poll while BUSY, and one in each of IDLE, DONE and ERROR. -/
theorem witness_PollYieldsTheFinalStatus :
    (∀ w ∈ [0x00000000#32, 0x00000002#32, 0x00000013#32], ({ idleWith [.host .poll] with status := w } : State).runState ≠ .busy ∧
      ({ idleWith [.host .poll] with status := w } : State).turns = .host .poll :: []) ∧
    (busyWith [.host .poll]).runState = .busy ∧ (busyWith [.host .poll]).turns = .host .poll :: [] ∧
    ∃ t, engineStep (busyWith [.host .poll]) = .next t := by
  have hw : ∀ w ∈ [0x00000000#32, 0x00000002#32, 0x00000013#32], stateField w ≠ .busy := by
    simp only [List.forall_mem_cons, List.not_mem_nil, false_implies, implies_true, and_true]
    decide
  refine ⟨fun w h => ⟨hw w h, rfl⟩, by decide, rfl, ?_⟩
  obtain ⟨t, h, -⟩ := of_nextIs (p := fun _ => true) (o := engineStep (busyWith [.host .poll])) (by decide)
  exact ⟨t, h⟩

theorem witness_SerializerIsInvertible : (toBits [0x41#8]).length % 8 = 0 ∧ ([] : List Bool).length % 8 = 0 := by decide

theorem witness_DelimiterDoesNotStraddle : 0 < 8 * ([0xFF#8, 0xFE#8] : List Byte).length ∧
    DelimAt (frame [0xFF#8, 0xFE#8]) 0 ∧ 15 < 8 * ([0xFF#8, 0xFE#8] : List Byte).length := by
  decide

theorem witness_SevenBitMessagesHoldNoDelimiter : ∀ b ∈ ([0x7F#8, 0x00#8] : List Byte), b.toNat < 0x80 := by decide

theorem witness_CapacityBounds : 1 ≤ 1 ∧ 16 ≤ 3 * 6 ∧ (7 < 8 ∧ 1 ≤ 1) ∧ 8 * 1 + 16 = 3 * 8 ∧ 8 * 3 + 16 = 3 * 13 + 1 := by
  decide

theorem witness_AddressOfPayloadBits : 2 < 3 ∧ 42 % 4 ≠ 3 ∧ 43 % 4 = 3 := by decide

theorem witness_InsertLsbChangesOnlyBitZero :
    Memory.get (memOf [0xFF#8]) 0 = some 0xFF#8 ∧ Memory.get (memOf [0xFF#8]) 1 = none := by
  decide

/-- The exact fit of V4.4: 24 bits into 24. -/
theorem witness_EncodePlacesTheFrame :
    EncodeAccepts stateV44 ∧ ([0x41#8] : List Byte).length = stateV44.msglen.toNat ∧ MessageIs stateV44.msg [0x41#8] ∧
    PayloadDefined stateV44.pix (8 * stateV44.msglen.toNat + 16) := by
  decide

theorem witness_EmptyInputIsEncodesAlone :
    (∀ s ∈ [busyState false 1#32 0#32 8#32 [] [], busyState false 1#32 16#32 0#32 [] [], busyState false 1#32 0#32 0#32 [] []],
      s.pixcnt.toNat ≤ s.cfg.pixMax ∧ s.msglen.toNat ≤ s.cfg.msgMax ∧ (s.pixcnt.toNat = 0 ∨ s.msglen.toNat = 0)) ∧
    (∃ t, exec .encode (busyState false 1#32 0#32 8#32 [] []) = .next t ∧ errField t.status = 1#3) ∧
    ∃ t, exec .decode stateZeros = .next t := by
  refine ⟨by decide, ⟨_, rfl, by decide⟩, ?_⟩
  obtain ⟨t, h, -⟩ := decode_zeros_fails
  exact ⟨t, h⟩

/-- V2.7's boundary: one bit too long. -/
theorem witness_CapacityExceededIsEncodesAlone :
    (1 ≤ (busyState false 1#32 13#32 3#32 [] []).pixcnt.toNat ∧
      (busyState false 1#32 13#32 3#32 [] []).pixcnt.toNat ≤ (busyState false 1#32 13#32 3#32 [] []).cfg.pixMax ∧
      1 ≤ (busyState false 1#32 13#32 3#32 [] []).msglen.toNat ∧
      (busyState false 1#32 13#32 3#32 [] []).msglen.toNat ≤ (busyState false 1#32 13#32 3#32 [] []).cfg.msgMax ∧
      3 * (busyState false 1#32 13#32 3#32 [] []).pixcnt.toNat <
        8 * (busyState false 1#32 13#32 3#32 [] []).msglen.toNat + 16) ∧
    (∃ t, exec .encode (busyState false 1#32 13#32 3#32 [] []) = .next t ∧ errField t.status = 2#3) ∧
    ∃ t, exec .decode stateZeros = .next t := by
  refine ⟨by decide, ⟨_, rfl, by decide⟩, ?_⟩
  obtain ⟨t, h, -⟩ := decode_zeros_fails
  exact ⟨t, h⟩

theorem witness_EncodeLeavesTheRestAlone : ∃ t, exec .encode stateV44 = .next t := by
  obtain ⟨t, h, -⟩ := encode_V44_succeeds
  exact ⟨t, h⟩

theorem witness_EncodedStreamBeginsWithTheFrame :
    (∃ t, exec .encode stateV44 = .next t ∧ t.runState = .done) ∧
    ([0x41#8] : List Byte).length = stateV44.msglen.toNat ∧ MessageIs stateV44.msg [0x41#8] :=
  ⟨encode_V44_succeeds, by decide⟩

theorem witness_EncodeTwiceIsEncodeOnce :
    stateV44.pix.wf ∧ ∃ t, exec .encode stateV44 = .next t ∧ t.runState = .done :=
  ⟨by decide, encode_V44_succeeds⟩

/-- The two states differ: the second's CMD, DPOS and one alpha byte are others. -/
theorem witness_EncodeDependsOnItsOperandsOnly :
    let s' : State := { stateV44 with cmd := 7#32, dpos := 9#32, pix := stateV44.pix.set 3 0#8 }
    s'.cfg = stateV44.cfg ∧ s'.pixcnt = stateV44.pixcnt ∧ s'.msglen = stateV44.msglen ∧
    (∀ j < stateV44.msglen.toNat, s'.msg.get j = stateV44.msg.get j) ∧
    (∀ i < 8 * stateV44.msglen.toNat + 16, s'.pix.get (addrOf i) = stateV44.pix.get (addrOf i)) ∧
    ∃ t, exec .encode stateV44 = .next t := by
  refine ⟨rfl, rfl, rfl, fun _ _ => rfl, by decide, ?_⟩
  obtain ⟨t, h, -⟩ := encode_V44_succeeds
  exact ⟨t, h⟩

theorem witness_DecodeDeliversTheMessage :
    (stateP4 false).pixcnt.toNat ≤ (stateP4 false).cfg.pixMax ∧ streamP4.length = 3 * (stateP4 false).pixcnt.toNat ∧
    StreamIs (stateP4 false).pix streamP4 ∧ FirstDelimAt streamP4 11 ∧
    ((stateP4 false).cfg.strictK8 = true → 11 % 8 = 0) ∧
    (stateV510.pixcnt.toNat ≤ stateV510.cfg.pixMax ∧ streamV510.length = 3 * stateV510.pixcnt.toNat ∧
      StreamIs stateV510.pix streamV510 ∧ FirstDelimAt streamV510 0 ∧ (stateV510.cfg.strictK8 = true → 0 % 8 = 0)) :=
  ⟨by decide, by decide, streamIs_P4 false, firstDelim_P4, by decide, by decide⟩

theorem witness_NoDelimiterIsNoHiddenMessage :
    stateZeros.pixcnt.toNat ≤ stateZeros.cfg.pixMax ∧ (List.replicate 18 false).length = 3 * stateZeros.pixcnt.toNat ∧
    StreamIs stateZeros.pix (List.replicate 18 false) ∧ ∀ j, ¬ DelimAt (List.replicate 18 false) j := by
  refine ⟨by decide, by decide, by decide, fun j hj => ?_⟩
  have h := hj.1 0 (by omega)
  rw [Nat.add_zero] at h
  have := List.mem_of_getElem? h
  simp at this

theorem witness_UnalignedDelimiterFollowsStrictK8 :
    (stateP4 true).pixcnt.toNat ≤ (stateP4 true).cfg.pixMax ∧ streamP4.length = 3 * (stateP4 true).pixcnt.toNat ∧
    StreamIs (stateP4 true).pix streamP4 ∧ StreamIs (stateP4 false).pix streamP4 ∧ FirstDelimAt streamP4 11 ∧ 11 % 8 ≠ 0 ∧
    (stateP4 true).cfg.strictK8 = true ∧ (stateP4 false).cfg.strictK8 = false :=
  ⟨by decide, by decide, streamIs_P4 true, streamIs_P4 false, firstDelim_P4, by decide, rfl, rfl⟩

/-- Five pixels, and none. -/
theorem witness_TinyBuffersHoldNoMessage :
    (∀ s ∈ [busyState false 2#32 5#32 0#32 (List.replicate 20 1#8) [], busyState false 2#32 0#32 0#32 [] []],
      s.pixcnt.toNat ≤ 5 ∧ s.pixcnt.toNat ≤ s.cfg.pixMax ∧ PayloadDefined s.pix (3 * s.pixcnt.toNat)) := by
  decide

theorem witness_DecodeNeverWritesPix : ∃ t, exec .decode (stateP4 false) = .next t ∧ t.runState = .done := decode_P4_succeeds

theorem witness_DecodeIgnoresMsglenAndMsg : ∃ t, exec .decode (stateP4 false) = .next t ∧ t.runState = .done :=
  decode_P4_succeeds

/-- Another buffer with the same payload LSBs: an alpha byte and the upper bits of a payload byte differ. -/
theorem witness_DecodeSeesOnlyPayloadLsbs :
    (∀ i < 3 * (stateP4 false).pixcnt.toNat,
      extractLSB (((stateP4 false).pix.set 3 0#8).set 0 0x7E#8) (addrOf i) = extractLSB (stateP4 false).pix (addrOf i)) ∧
    ∃ t, exec .decode (stateP4 false) = .next t := by
  refine ⟨by decide, ?_⟩
  obtain ⟨t, h, -⟩ := decode_P4_succeeds
  exact ⟨t, h⟩

theorem witness_DecodedMessageFits :
    (stateP4 false).cfg.Valid ∧ (stateP4 false).msg.Below (stateP4 false).cfg.msgMax ∧
    ∃ t, exec .decode (stateP4 false) = .next t ∧ t.runState = .done :=
  ⟨by decide, by decide, decode_P4_succeeds⟩

theorem witness_DecodeTwiceIsDecodeOnce : (stateP4 false).msg.wf ∧ ∃ t, exec .decode (stateP4 false) = .next t := by
  obtain ⟨t, h, -⟩ := decode_P4_succeeds
  exact ⟨by decide, t, h⟩

/-- V4.4 and V4.6, whose message holds the delimiter: both sides of the equivalence occur. -/
theorem witness_DecodeRecoversWhatEncodeHid :
    (∃ t u : State, stateV44.cfg.Valid ∧ ([0x41#8] : List Byte).length = stateV44.msglen.toNat ∧ MessageIs stateV44.msg [0x41#8] ∧
      exec .encode stateV44 = .next t ∧ t.runState = .done ∧ u.cfg = stateV44.cfg ∧ u.pixcnt = stateV44.pixcnt ∧
      u.pix = t.pix ∧ PayloadDefined stateV44.pix (3 * stateV44.pixcnt.toNat)) ∧
    (∃ t u : State, stateV46.cfg.Valid ∧ ([0xFF#8, 0xFE#8] : List Byte).length = stateV46.msglen.toNat ∧
      MessageIs stateV46.msg [0xFF#8, 0xFE#8] ∧ exec .encode stateV46 = .next t ∧ t.runState = .done ∧
      u.cfg = stateV46.cfg ∧ u.pixcnt = stateV46.pixcnt ∧ u.pix = t.pix ∧
      PayloadDefined stateV46.pix (3 * stateV46.pixcnt.toNat) ∧ DelimAt (toBits [0xFF#8, 0xFE#8]) 0) := by
  obtain ⟨t, h, hd⟩ := encode_V44_succeeds
  obtain ⟨t', h', hd'⟩ := encode_V46_succeeds
  exact ⟨⟨t, { stateV44 with pix := t.pix }, by decide, by decide, by decide, h, hd, rfl, rfl, rfl, by decide⟩,
    ⟨t', { stateV46 with pix := t'.pix }, by decide, by decide, by decide, h', hd', rfl, rfl, rfl, by decide,
      by decide⟩⟩

/-- V4.6's message holds the delimiter at 0, and so do the bytes `7F FF 00` at 1, which is no multiple of 8. -/
theorem witness_EarlyDelimiterShortensTheMessage :
    (∃ t u : State, stateV46.cfg.Valid ∧ ([0xFF#8, 0xFE#8] : List Byte).length = stateV46.msglen.toNat ∧
      MessageIs stateV46.msg [0xFF#8, 0xFE#8] ∧ exec .encode stateV46 = .next t ∧ t.runState = .done ∧
      u.cfg = stateV46.cfg ∧ u.pixcnt = stateV46.pixcnt ∧ u.pix = t.pix ∧
      PayloadDefined stateV46.pix (3 * stateV46.pixcnt.toNat) ∧ FirstDelimAt (toBits [0xFF#8, 0xFE#8]) 0 ∧
      ¬ (stateV46.cfg.strictK8 = true ∧ 0 % 8 ≠ 0)) ∧
    (let s : State := busyState true 1#32 14#32 3#32 (List.replicate 56 0x10#8) [0x7F#8, 0xFF#8, 0x00#8]
     ∃ t u : State, s.cfg.Valid ∧ ([0x7F#8, 0xFF#8, 0x00#8] : List Byte).length = s.msglen.toNat ∧
      MessageIs s.msg [0x7F#8, 0xFF#8, 0x00#8] ∧ exec .encode s = .next t ∧ t.runState = .done ∧
      u.cfg = s.cfg ∧ u.pixcnt = s.pixcnt ∧ u.pix = t.pix ∧ PayloadDefined s.pix (3 * s.pixcnt.toNat) ∧
      FirstDelimAt (toBits [0x7F#8, 0xFF#8, 0x00#8]) 1 ∧ s.cfg.strictK8 = true ∧ 1 % 8 ≠ 0) := by
  constructor
  · obtain ⟨t, h, hd⟩ := encode_V46_succeeds
    exact ⟨t, { stateV46 with pix := t.pix }, by decide, by decide, by decide, h, hd, rfl, rfl, rfl, by decide,
      by decide, by decide⟩
  · intro s
    obtain ⟨t, h, hd⟩ := of_nextIs (p := fun t => decide (t.runState = .done)) (o := exec .encode s) (by decide)
    exact ⟨t, { s with pix := t.pix }, by decide, by decide, by decide, h, of_decide_eq_true hd, rfl, rfl, rfl,
      by decide, by decide, rfl, by decide⟩

/-- The exact fit of V4.4 with its writes in reverse order, one bit too long (V2.7), both inputs empty, a buffer and a message one
beyond the memories, and a BUSY block. -/
theorem witness_EncodeCallGivesPixelsOrTheFailure :
    (State.reset.cfg.Valid ∧ State.reset.runState ≠ .busy ∧ stateV44.cfg.Valid ∧ stateV44.runState = .busy) ∧
    ((List.replicate 32 0xFF#8).length = 4 * 8 ∧
      (encodeWrites (List.replicate 32 0xFF#8) [0x41#8]).reverse.Perm (encodeWrites (List.replicate 32 0xFF#8) [0x41#8]) ∧
      8 ≤ State.reset.cfg.pixMax ∧ 1 ≤ State.reset.cfg.msgMax ∧ 8 * 1 + 16 ≤ 3 * 8) ∧
    ((List.replicate 52 0xFF#8).length = 4 * 13 ∧ 13 ≤ State.reset.cfg.pixMax ∧ 3 ≤ State.reset.cfg.msgMax ∧
      3 * 13 < 8 * 3 + 16) ∧
    (([] : List Byte).length = 4 * 0 ∧ (encodeWrites [] []).Perm (encodeWrites [] [])) ∧
    State.reset.cfg.pixMax < 17 ∧ State.reset.cfg.msgMax < 9 := by
  exact ⟨by decide, ⟨by decide, List.reverse_perm _, by decide⟩, by decide, ⟨rfl, List.Perm.refl _⟩, by decide⟩

/-- P4's buffer for both values of STRICT_K8, V5.5's kind without a delimiter, a buffer one pixel beyond PIX, and a BUSY block. -/
theorem witness_DecodeCallGivesTheMessageOrTheFailure :
    ((stateP4 true).cfg.Valid ∧ (stateP4 true).runState = .busy ∧ (State.resetOf ⟨16, 8, true⟩).runState ≠ .busy ∧
      (State.resetOf ⟨16, 8, true⟩).cfg.Valid ∧ State.reset.cfg.Valid ∧ State.reset.runState ≠ .busy) ∧
    (bufferP4.length = 4 * 10 ∧ streamP4.length = 3 * 10 ∧
      (∀ i < 3 * 10, streamP4[i]? = bufferP4[addrOf i]?.map fun v => v.getLsbD 0) ∧
      (decodeWrites bufferP4).reverse.Perm (decodeWrites bufferP4) ∧ 10 ≤ State.reset.cfg.pixMax ∧
      FirstDelimAt streamP4 11 ∧ 11 % 8 ≠ 0) ∧
    ((List.replicate 24 0#8).length = 4 * 6 ∧ (List.replicate 18 false).length = 3 * 6 ∧
      (∀ i < 3 * 6, (List.replicate 18 false)[i]? = (List.replicate 24 0#8)[addrOf i]?.map fun v => v.getLsbD 0) ∧
      ∀ j, ¬ DelimAt (List.replicate 18 false) j) ∧
    State.reset.cfg.pixMax < 17 :=
  ⟨by decide, ⟨by decide, by decide, by decide, List.reverse_perm _, by decide, firstDelim_P4, by decide⟩,
    ⟨by decide, by decide, by decide, witness_NoDelimiterIsNoHiddenMessage.2.2.2⟩, by decide⟩

/-- V4.4's call, and a block like it that is not BUSY. -/
theorem witness_DecodeCallUndoesEncodeCall :
    State.reset.cfg.Valid ∧ (List.replicate 32 0xFF#8).length = 4 * 8 ∧
    (∃ t px', encodeCall (List.replicate 32 0xFF#8) [0x41#8] State.reset = .next ⟨t, .pixels px'⟩) ∧
    State.reset.runState ≠ .busy := by
  obtain ⟨t, h⟩ := of_resultIs test_encode_call
  exact ⟨by decide, by decide, ⟨t, _, h⟩, by decide⟩

theorem witness_ResultCodesOfEachCommand :
    (∃ t, exec .encode stateV44 = .next t) ∧ (∃ t, exec .decode (stateP4 false) = .next t) ∧
    ((busyState false 3#32 0#32 0#32 [] []).cmd ≠ 0x00000001#32 ∧ (busyState false 3#32 0#32 0#32 [] []).cmd ≠ 0x00000002#32 ∧
      ∃ t, engineStep (busyState false 3#32 0#32 0#32 [] []) = .next t) := by
  obtain ⟨t, h, -⟩ := encode_V44_succeeds
  obtain ⟨t', h', -⟩ := decode_P4_succeeds
  exact ⟨⟨t, h⟩, ⟨t', h'⟩, by decide, by decide, _, rfl⟩

theorem witness_FailureChangesOnlyStatusAndDpos : ∃ t, engineStep stateZeros = .next t ∧ t.runState = .error := by
  obtain ⟨t, h, hp⟩ := of_nextIs (p := fun t => decide (t.runState = .error)) (o := engineStep stateZeros) (by decide)
  exact ⟨t, h, of_decide_eq_true hp⟩

theorem witness_DposHoldsTheDelimiterOffset :
    (stateV44.cfg.Valid ∧ ∃ t, exec .encode stateV44 = .next t ∧ t.runState = .done) ∧
    ((stateP4 false).cfg.Valid ∧ streamP4.length = 3 * (stateP4 false).pixcnt.toNat ∧
      StreamIs (stateP4 false).pix streamP4 ∧ ∃ t, exec .decode (stateP4 false) = .next t ∧ t.runState = .done) ∧
    (stateZeros.cfg.Valid ∧ ∃ t, exec .decode stateZeros = .next t ∧ t.runState = .error) :=
  ⟨⟨by decide, encode_V44_succeeds⟩, ⟨by decide, by decide, streamIs_P4 false, decode_P4_succeeds⟩,
    by decide, decode_zeros_fails⟩

/-- All bytes defined; the last payload byte undefined (DECODE); the message byte undefined (ENCODE). -/
theorem witness_UndefinedByteRefusesTheCommand :
    BytesReady .encode stateV44 ∧ BytesReady .decode (stateP4 false) ∧
    ¬ BytesReady .decode (busyState false 2#32 1#32 0#32 [0#8, 0#8] []) ∧
    ¬ BytesReady .encode { stateV44 with msg := [] } := by
  refine ⟨fun _ => by decide, fun _ => by decide, fun h => ?_, fun h => ?_⟩
  · exact absurd (h (by decide) 2 (by decide)) (by decide)
  · exact absurd ((h (by decide)).1 0 (by decide)) (by decide)

theorem witness_PendingCommandEnds :
    stateV44.runState = .busy ∧ CommandReady stateV44 ∧ stateV44.turns = [] ∧
    (∃ rest, ({ stateV44 with turns := [.engine] } : State).turns = .engine :: rest) ∧
    (∃ rest, ({ stateV44 with turns := [.host .poll] } : State).turns = .host .poll :: rest) := by
  refine ⟨by decide, fun i hi => ?_, rfl, ⟨[], rfl⟩, ⟨[], rfl⟩⟩
  obtain rfl : Instr.encode = i := Except.ok.inj hi
  exact fun _ => by decide

theorem witness_AlphaBytesNeverChange : ∃ t, exec .encode stateV44 = .next t ∧ t.runState = .done := encode_V44_succeeds

theorem witness_UpperBitsArePreserved : ∃ t, exec .encode stateV44 = .next t ∧ t.runState = .done := encode_V44_succeeds

/-- V4.4's state, and the step of its engine. -/
theorem witness_StepKeepsTheInvariant : Inv stateV44 ∧ ∃ t, step stateV44 = .next t := by
  refine ⟨⟨by decide, by decide, by decide, by decide, by decide, by decide, by decide, by decide⟩, ?_⟩
  obtain ⟨t, h, -⟩ := of_nextIs (p := fun _ => true) (o := step stateV44) (by decide)
  exact ⟨t, h⟩

/-- The smallest and the largest valid parameters. -/
theorem witness_ResetSatisfiesTheInvariant :
    Config.Valid ⟨0, 0, true⟩ ∧ Config.Valid ⟨2 ^ 30 - 1, 2 ^ 32 - 1, false⟩ := by
  decide

/-- One step from reset: a pixel byte is written. -/
theorem witness_ReachableStatesSatisfyTheInvariant :
    Reachable { State.reset with pix := [(5, 7#8)] } :=
  ⟨Config.reference, [.host (.wrPix 5 7#8)], 1, by decide, _, rfl, rfl⟩

theorem witness_ResultStaysTiedUntilMsglenIsWritten :
    stateV44.cfg.Valid ∧ ResultTied stateV44 ∧ (∃ t, step stateV44 = .next t) ∧
    ∀ v rest, stateV44.turns ≠ .host (.wr 3 v) :: rest := by
  refine ⟨by decide, ⟨fun h => absurd h (by decide), fun h => absurd h (by decide)⟩, ?_, fun _ _ h => List.cons_ne_nil _ _ h.symm⟩
  obtain ⟨t, h, -⟩ := of_nextIs (p := fun _ => true) (o := step stateV44) (by decide)
  exact ⟨t, h⟩

theorem witness_StepKeepsTheParameters : ∃ t, step stateV44 = .next t := by
  obtain ⟨t, h, -⟩ := of_nextIs (p := fun _ => true) (o := step stateV44) (by decide)
  exact ⟨t, h⟩

theorem witness_StateTransitions : ∃ t, step stateV44 = .next t ∧ t.runState ≠ stateV44.runState := by
  obtain ⟨t, h, hp⟩ :=
    of_nextIs (p := fun t => decide (t.runState ≠ stateV44.runState)) (o := step stateV44) (by decide)
  exact ⟨t, h, of_decide_eq_true hp⟩

theorem witness_DefinedBytesStayDefined :
    (∃ t, step stateV44 = .next t) ∧ (∀ rest, stateV44.turns ≠ .reset :: rest) ∧
    (stateV44.pix.get 0).isSome = true ∧ (stateV44.msg.get 0).isSome = true := by
  refine ⟨witness_StepKeepsTheParameters, fun _ h => List.cons_ne_nil _ _ h.symm, by decide, by decide⟩

theorem witness_RegistersHaveTheirOwnWriters :
    (∃ t, step stateV44 = .next t) ∧ ∀ rest, stateV44.turns ≠ .reset :: rest :=
  ⟨witness_StepKeepsTheParameters, fun _ h => List.cons_ne_nil _ _ h.symm⟩

end Sys2Proof.Tests
end

/-! ### The delimiter search, how a command ends, and the parameters that no step changes -/

/-! #### What valid parameters bound (R9) -/

namespace Sys2Proof

/-- With valid parameters every bit offset of the payload fits a register (R9). -/
theorem Config.Valid.toNat_ofNat_offset {c : Config} (hc : c.Valid) {n k : Nat} (hn : n ≤ c.pixMax)
    (hk : k ≤ 3 * n) : (BitVec.ofNat 32 k).toNat = k := by
  obtain ⟨hpix, -, -⟩ := hc
  rw [BitVec.toNat_ofNat, Nat.mod_eq_of_lt (by omega)]

/-- With valid parameters what stands before a delimiter of `n` pixels' payload fits in MSG (R9, R150). -/
theorem Config.Valid.div_eight_le_msgMax {c : Config} (hc : c.Valid) {n k : Nat} (hn : n ≤ c.pixMax)
    (hk : k + 16 ≤ 3 * n) : k / 8 ≤ c.msgMax := by
  obtain ⟨-, -, hmsg⟩ := hc
  omega

end Sys2Proof

namespace Sys2Proof.Machine

/-! #### The delimiter search (R142) -/

/-- A delimiter lies whole inside the sequence it stands in (R92). -/
theorem DelimAt.add_sixteen_le {S : List Bool} {k : Nat} (h : DelimAt S k) : k + 16 ≤ S.length := by
  obtain ⟨hlast, -⟩ := List.getElem?_eq_some_iff.1 h.2
  omega

theorem delimAt_cons_succ {b : Bool} {S : List Bool} {k : Nat} : DelimAt (b :: S) (k + 1) ↔ DelimAt S k := by
  simp only [DelimAt, Nat.add_right_comm k 1, List.getElem?_cons_succ]

/-- The search's test at the head of a sequence is that the delimiter stands there (R92, R142). -/
theorem take_sixteen_eq_delim_iff {S : List Bool} : S.take 16 = delim ↔ DelimAt S 0 := by
  have entry (t : Nat) : (S.take 16)[t]? = delim[t]? ↔
      (t < 15 → S[0 + t]? = some true) ∧ (t = 15 → S[0 + 15]? = some false) := by
    rw [delim_getElem?, List.getElem?_take, Nat.zero_add]
    rcases Nat.lt_trichotomy t 15 with ht | rfl | ht
    · simp [ht, Nat.lt_succ_of_lt ht, Nat.ne_of_lt ht]
    · simp
    · simp [Nat.not_lt_of_gt ht, Nat.ne_of_gt ht, show ¬ t < 16 by omega]
  simp only [List.ext_getElem?_iff, entry, forall_and, forall_eq, DelimAt]

/-- `FindDelim` is the first delimiter's offset (R142). -/
theorem findDelim_eq_some_iff {S : List Bool} {k : Nat} : findDelim S = some k ↔ FirstDelimAt S k := by
  induction S generalizing k with
  | nil => simp [DelimAt]
  | cons b S ih =>
    rw [findDelim_cons]
    split
    case isTrue hhead =>
      have hzero : DelimAt (b :: S) 0 := take_sixteen_eq_delim_iff.1 hhead
      constructor
      · rintro ⟨⟩
        exact ⟨hzero, fun j hj => absurd hj (Nat.not_lt_zero j)⟩
      · rintro ⟨-, hfirst⟩
        rw [Nat.eq_zero_of_not_pos fun hk => hfirst 0 hk hzero]
    case isFalse hhead =>
      have hzero : ¬ DelimAt (b :: S) 0 := mt take_sixteen_eq_delim_iff.2 hhead
      cases k with
      | zero => simp [hzero]
      | succ k =>
        rw [Option.map_eq_some_iff]
        simp only [Nat.add_right_cancel_iff, exists_eq_right, ih, FirstDelimAt, delimAt_cons_succ]
        refine and_congr_right fun _ => ⟨fun hfirst j hj => ?_, fun hfirst j hj => ?_⟩
        · cases j with
          | zero => exact hzero
          | succ j => exact mt delimAt_cons_succ.1 (hfirst j (by omega))
        · exact mt delimAt_cons_succ.2 (hfirst (j + 1) (by omega))

/-! #### What DECODE's success leaves (R146, R147) -/

section
variable (s : State) (S : List Bool) (k : Nat)

@[simp] theorem deliverMessage_cfg : (deliverMessage s S k).cfg = s.cfg := rfl
@[simp] theorem deliverMessage_cmd : (deliverMessage s S k).cmd = s.cmd := rfl
@[simp] theorem deliverMessage_status : (deliverMessage s S k).status = statusDone := rfl
@[simp] theorem deliverMessage_pixcnt : (deliverMessage s S k).pixcnt = s.pixcnt := rfl
@[simp] theorem deliverMessage_msglen : (deliverMessage s S k).msglen = BitVec.ofNat 32 (k / 8) := rfl
@[simp] theorem deliverMessage_dpos : (deliverMessage s S k).dpos = BitVec.ofNat 32 k := rfl
@[simp] theorem deliverMessage_pix : (deliverMessage s S k).pix = s.pix := rfl
@[simp] theorem deliverMessage_msg :
    (deliverMessage s S k).msg = s.msg.setBytes 0 (fromBits (S.take k)) := rfl
@[simp] theorem deliverMessage_turns : (deliverMessage s S k).turns = s.turns := rfl
@[simp] theorem deliverMessage_replies : (deliverMessage s S k).replies = s.replies := rfl
@[simp] theorem deliverMessage_runState : (deliverMessage s S k).runState = .done := stateField_done

end

/-- The whole bytes of the first `k` bits stand below any bound with room for `k div 8` bytes (R59, R150). -/
theorem Memory.Below.setBytes_fromBits {mem : Memory} {bound : Nat} (hmem : mem.Below bound) (S : List Bool)
    {k : Nat} (hk : k / 8 ≤ bound) : (mem.setBytes 0 (fromBits (S.take k))).Below bound := by
  intro c hc
  rcases Memory.mem_setBytes hc with ⟨-, hlt⟩ | hold
  · simp only [fromBits_length, List.length_take] at hlt
    omega
  · exact hmem c hold

/-! #### How a command ends (R16, R165, R166) -/

/-- ENCODE ends in a failure, or has placed the frame of the message and ends at offset `8*L` (R120, R126). -/
theorem exec_encode_next {s t : State} (h : exec .encode s = .next t) :
    (∃ f, t = s.raise f) ∨
    (EncodeAccepts s ∧ ∃ m pix, s.message = some m ∧ insertBits s.pix 0 (frame m) = some pix ∧
      t = ({ s with pix := pix } : State).finish (8 * s.messageLength)) := by
  rcases execEncode_next h with ⟨-, ht⟩ | ⟨-, -, ht⟩ | ⟨-, -, -, ht⟩ | hplaced
  · exact .inl ⟨_, ht⟩
  · exact .inl ⟨_, ht⟩
  · exact .inl ⟨_, ht⟩
  · exact .inr hplaced

/-- DECODE ends in a failure, or has delivered what stands before the stream's first delimiter (R140, R147). -/
theorem exec_decode_next {s t : State} (h : exec .decode s = .next t) :
    (∃ f, t = s.raise f) ∨
    (s.pixelCount ≤ s.cfg.pixMax ∧
      ∃ S k, s.stream = some S ∧ FirstDelimAt S k ∧ t = deliverMessage s S k) := by
  rcases execDecode_next h with ⟨-, ht⟩ | ⟨hrange, S, hS, ⟨-, ht⟩ | ⟨k, hk, ⟨-, -, ht⟩ | ⟨-, ht⟩⟩⟩
  · exact .inl ⟨_, ht⟩
  · exact .inl ⟨_, ht⟩
  · exact .inl ⟨_, ht⟩
  · exact .inr ⟨State.decodeInRange_iff.1 hrange, S, k, hS, findDelim_eq_some_iff.1 hk, ht⟩

theorem exec_cfg {i : Instr} {s t : State} (h : exec i s = .next t) : t.cfg = s.cfg := by
  cases i with
  | encode => rcases exec_encode_next h with ⟨f, rfl⟩ | ⟨-, m, pix, -, -, rfl⟩ <;> rfl
  | decode => rcases exec_decode_next h with ⟨f, rfl⟩ | ⟨-, S, k, -, -, rfl⟩ <;> rfl

theorem exec_runState {i : Instr} {s t : State} (h : exec i s = .next t) :
    t.runState = .done ∨ t.runState = .error := by
  cases i with
  | encode => rcases exec_encode_next h with ⟨f, rfl⟩ | ⟨-, m, pix, -, -, rfl⟩ <;> simp
  | decode => rcases exec_decode_next h with ⟨f, rfl⟩ | ⟨-, S, k, -, -, rfl⟩ <;> simp

/-- An error clears DPOS (R166). -/
theorem exec_dpos_of_error {i : Instr} {s t : State} (h : exec i s = .next t) (he : t.runState = .error) :
    t.dpos = 0#32 := by
  cases i with
  | encode =>
    rcases exec_encode_next h with ⟨f, rfl⟩ | ⟨-, m, pix, -, -, rfl⟩
    · rfl
    · simp at he
  | decode =>
    rcases exec_decode_next h with ⟨f, rfl⟩ | ⟨-, S, k, -, -, rfl⟩
    · rfl
    · simp at he

/-- A successful ENCODE has passed its tests and leaves `8*L` in DPOS, modulo the register's width (R126). -/
theorem exec_encode_done {s t : State} (h : exec .encode s = .next t) (hdone : t.runState = .done) :
    EncodeAccepts s ∧ t.dpos = BitVec.ofNat 32 (8 * s.messageLength) := by
  rcases exec_encode_next h with ⟨f, rfl⟩ | ⟨hacc, m, pix, -, -, rfl⟩
  · simp at hdone
  · exact ⟨hacc, rfl⟩

/-- A successful DECODE has its count in range and has delivered what stands before the first delimiter (R147). -/
theorem exec_decode_done {s t : State} (h : exec .decode s = .next t) (hdone : t.runState = .done) :
    s.pixelCount ≤ s.cfg.pixMax ∧
      ∃ S k, s.stream = some S ∧ FirstDelimAt S k ∧ t = deliverMessage s S k := by
  rcases exec_decode_next h with ⟨f, rfl⟩ | hdelivered
  · simp at hdone
  · exact hdelivered

/-- A stream's delimiter lies inside the payload of the `N` pixels (R115, R142). -/
theorem FirstDelimAt.add_sixteen_le {s : State} {S : List Bool} {k : Nat} (hS : s.stream = some S)
    (hk : FirstDelimAt S k) : k + 16 ≤ 3 * s.pixelCount := by
  obtain ⟨hlen, -⟩ := State.stream_eq_some.1 hS
  exact hlen ▸ hk.1.add_sixteen_le

/-- Settles O39: the first delimiter lies inside the `3*N` payload bits, and R9 makes MSG large enough for what stands
before it. -/
theorem decodedMessageFits : Obligations.DecodedMessageFits := by
  intro s t hvalid h hdone
  obtain ⟨hn, S, k, hS, hk, rfl⟩ := exec_decode_done h hdone
  have hroom : k + 16 ≤ 3 * s.pixelCount := hk.add_sixteen_le hS
  have hfit : k / 8 ≤ s.cfg.msgMax := hvalid.div_eight_le_msgMax hn hroom
  have hdpos : (BitVec.ofNat 32 k).toNat = k := hvalid.toNat_ofNat_offset hn (by omega)
  have hlen : (BitVec.ofNat 32 (k / 8)).toNat = k / 8 := hvalid.toNat_ofNat_offset hn (by omega)
  rw [deliverMessage_dpos, deliverMessage_msglen, deliverMessage_msg, hdpos, hlen]
  exact ⟨hroom, Nat.div_le_div_right (Nat.le_sub_of_add_le hroom), hfit,
    fun hbelow => hbelow.setBytes_fromBits S hfit⟩

/-- Settles O45: each command's end writes DPOS, and with valid parameters the offset it writes fits the register. -/
theorem dposHoldsTheDelimiterOffset : Obligations.DposHoldsTheDelimiterOffset := by
  intro i s t hvalid h
  refine ⟨?_, ?_, exec_dpos_of_error h⟩
  · rintro hdone rfl
    obtain ⟨⟨hn, -, -, -, hcap⟩, hdpos⟩ := exec_encode_done h hdone
    rw [hdpos]
    exact hvalid.toNat_ofNat_offset hn (by omega)
  · rintro hdone rfl S hlen hS
    obtain ⟨hn, S', k, hS', hk, rfl⟩ := exec_decode_done h hdone
    obtain rfl : S' = S := Option.some.inj (hS'.symm.trans (State.stream_eq_some.2 ⟨hlen, hS⟩))
    have hroom := hk.add_sixteen_le hS'
    rw [deliverMessage_dpos, hvalid.toNat_ofNat_offset hn (by omega)]
    exact hk

/-! #### A command whose bytes are defined is performed (R18, R202, R210) -/

/-- An outcome that is no refusal is a next state: there are no faults (R16). -/
theorem exists_next_of_not_refused {α : Type} {o : Host.Outcome α Fault Refusal} (h : ∀ r, o ≠ .refused r) :
    ∃ a, o = .next a := by
  cases o with
  | next a => exact ⟨a, rfl⟩
  | fault f => exact nomatch f
  | refused r => exact absurd rfl (h r)

theorem exec_next_of_bytesReady {i : Instr} {s : State} (h : BytesReady i s) : ∃ t, exec i s = .next t := by
  refine exists_next_of_not_refused fun r hr => ?_
  cases i with
  | encode =>
    obtain ⟨hacc, hundefined⟩ := execEncode_refused hr
    obtain ⟨hmsg, hpix⟩ := h hacc
    rcases hundefined with ⟨hnone, -⟩ | ⟨m, hm, hnone, -⟩
    · simpa [hnone] using State.message_isSome.2 hmsg
    · obtain ⟨hlen, -⟩ := State.message_eq_some.1 hm
      have hframe : (insertBits s.pix 0 (frame m)).isSome = true :=
        insertBits_isSome.2 fun t ht => by simpa using hpix t (by simpa [hlen] using ht)
      simp [hnone] at hframe
  | decode =>
    obtain ⟨hrange, hnone, -⟩ := execDecode_refused hr
    simpa [hnone] using State.stream_isSome.2 (h (State.decodeInRange_iff.1 hrange))

theorem engineStep_cfg {s t : State} (h : engineStep s = .next t) : t.cfg = s.cfg := by
  rcases engineStep_cases s with ⟨e, -, hraise⟩ | ⟨i, -, hexec⟩
  · cases hraise.symm.trans h; rfl
  · exact exec_cfg (hexec.symm.trans h)

/-- The engine's step ends the command (R16, R18). -/
theorem engineStep_runState {s t : State} (h : engineStep s = .next t) :
    t.runState = .done ∨ t.runState = .error := by
  rcases engineStep_cases s with ⟨e, -, hraise⟩ | ⟨i, -, hexec⟩
  · cases hraise.symm.trans h; exact .inr (State.raise_runState ..)
  · exact exec_runState (hexec.symm.trans h)

theorem engineStep_next_of_ready {s : State} (h : CommandReady s) : ∃ t, engineStep s = .next t := by
  rcases engineStep_cases s with ⟨e, -, hraise⟩ | ⟨i, hi, hexec⟩
  · exact ⟨_, hraise⟩
  · rw [hexec]
    exact exec_next_of_bytesReady (h i hi)

/-! #### Whose step it is while BUSY (R12, R86; log 2) -/

theorem step_of_busy_nil {s : State} (hb : s.runState = .busy) (ht : s.turns = []) : step s = engineStep s := by
  simp [step, takeTurn, ht, engineTurn, hb]

theorem step_of_busy_engine {s : State} {rest : List Turn} (hb : s.runState = .busy)
    (ht : s.turns = .engine :: rest) : step s = engineStep (s.afterTurn rest) := by
  simp [step, takeTurn, ht, engineTurn, hb]

theorem step_of_busy_poll {s : State} {rest : List Turn} (hb : s.runState = .busy)
    (ht : s.turns = .host .poll :: rest) : step s = engineStep s := by
  simp only [step, takeTurn, ht, hostTurn, hb, hostTurnBusy, if_true]
  cases engineStep s <;> rfl

/-- Settles O47: each of the three ways is the engine's step, which a ready command answers and ends. -/
theorem pendingCommandEnds : Obligations.PendingCommandEnds := by
  intro s hb hready hturns
  obtain ⟨u, hu, hready⟩ : ∃ u, step s = engineStep u ∧ CommandReady u := by
    rcases hturns with ht | ⟨rest, ht⟩ | ⟨rest, ht⟩
    · exact ⟨s, step_of_busy_nil hb ht, hready⟩
    · exact ⟨s.afterTurn rest, step_of_busy_engine hb ht, hready⟩
    · exact ⟨s, step_of_busy_poll hb ht, hready⟩
  obtain ⟨t, ht⟩ := engineStep_next_of_ready hready
  exact ⟨t, hu.trans ht, engineStep_runState ht⟩

/-! #### The parameters (R9, R10) -/

theorem hostAct_cfg {x : Transaction} {s t : State} (h : hostAct x s = .next t) : t.cfg = s.cfg := by
  rcases hostAct_next h with ⟨w, -, -, rfl⟩ | ⟨v, -, -, rfl⟩ | ⟨v, -, -, rfl⟩ | ⟨a, v, -, -, -, rfl⟩ |
    ⟨j, v, -, -, -, rfl⟩ | ⟨r, -, rfl⟩ <;> rfl

/-- Settles O54: neither the engine, nor a host transaction, nor reset writes them. -/
theorem stepKeepsTheParameters : Obligations.StepKeepsTheParameters := by
  intro s t h
  rcases step_next h with ⟨-, -, rfl⟩ | ⟨rest, -, -, rfl⟩ | ⟨-, -, hengine⟩ | ⟨rest, -, -, hengine⟩ |
    ⟨rest, -, -, hengine⟩ | ⟨x, rest, -, hhost⟩ | ⟨rest, -, rfl⟩
  · rfl
  · rfl
  · exact engineStep_cfg hengine
  · exact (engineStep_cfg hengine).trans (State.afterTurn_cfg s rest)
  · exact engineStep_cfg hengine
  · exact (hostAct_cfg hhost).trans (State.afterTurn_cfg s rest)
  · rfl

end Sys2Proof.Machine

/-! ### What every step keeps: the invariant, the registers' writers, the defined bytes -/

namespace Sys2Proof

/-- A word is split into its two fields and nothing else (R71). -/
theorem zeroField_append_opField (w : Word) : zeroField w ++ opField w = w := by
  have hjoin :=
    BitVec.extractLsb'_append_extractLsb'_eq_extractLsb' (x := w) (start₁ := 0) (len₁ := 4) (len₂ := 28) rfl
  exact hjoin.trans BitVec.extractLsb'_eq_self

theorem opField_of_commandOfOp {op : BitVec 4} {i : Instr} (h : commandOfOp op = .ok i) : op = opOf i := by
  unfold commandOfOp at h
  split at h
  case isTrue hop => cases h; exact hop
  case isFalse =>
    split at h
    case isTrue hop => cases h; exact hop
    case isFalse => cases h

/-- A word that decodes to a command is that command's word (R71, R72). -/
theorem eq_encode_of_decodeCmd {w : Word} {i : Instr} (h : decodeCmd w = .ok i) : w = encode i := by
  unfold decodeCmd at h
  split at h
  case h_1 => cases h
  case h_2 j hop =>
    split at h
    case isTrue hzero =>
      cases h
      rw [← zeroField_append_opField w, hzero, opField_of_commandOfOp hop, encode]
    case isFalse => cases h

end Sys2Proof

namespace Sys2Proof.Machine

/-! #### Reset (R38, R191) -/

/-- Settles O1: reset sets every register to 0 and lists no byte. -/
theorem resetClearsRegistersAndForgetsBytes : Obligations.ResetClearsRegistersAndForgetsBytes := by
  intro c
  have hfields : errField 0#32 = 0#3 ∧ eiField 0#32 = false ∧ emField 0#32 = false := by decide
  obtain ⟨herr, hei, hem⟩ := hfields
  exact ⟨rfl, rfl, rfl, rfl, rfl, stateField_zero, herr, hei, hem, fun _ => rfl, fun _ => rfl⟩

/-- Settles O51: STATUS is 0, which is IDLE, and both memories are empty. -/
theorem resetSatisfiesTheInvariant : Obligations.ResetSatisfiesTheInvariant := by
  intro c turns hvalid
  exact {
    cfg_valid := hvalid
    status_value := List.mem_cons_self
    dpos_zero := fun _ => rfl
    cmd_zero := fun _ => rfl
    pix_wf := .nil
    msg_wf := .nil
    pix_below := fun _ hc => nomatch hc
    msg_below := fun _ hc => nomatch hc }

/-! #### The result codes (R160) -/

/-- EmptyInput comes with EI or EM set, so it gives one of three STATUS values (R26, R161). -/
theorem statusOfFailure_emptyInput {ei em : Bool} (h : ei = true ∨ em = true) :
    statusOfFailure (.emptyInput ei em) ∈ [0x00000027#32, 0x00000047#32, 0x00000067#32] := by
  revert ei em
  decide

@[simp] theorem statusOfFailure_capacityExceeded : statusOfFailure .capacityExceeded = 0x0000000B#32 := by decide
@[simp] theorem statusOfFailure_noHiddenMessage : statusOfFailure .noHiddenMessage = 0x0000000F#32 := by decide
@[simp] theorem statusOfFailure_illegalCommand : statusOfFailure .illegalCommand = 0x00000013#32 := by decide

theorem exec_encode_status {s t : State} (h : exec .encode s = .next t) : t.status ∈
    [0x00000002#32, 0x00000027#32, 0x00000047#32, 0x00000067#32, 0x0000000B#32, 0x00000013#32] := by
  rcases execEncode_next h with ⟨-, rfl⟩ | ⟨-, hempty, rfl⟩ | ⟨-, -, -, rfl⟩ | ⟨-, m, pix, -, -, rfl⟩
  · simp
  · have hstatus := statusOfFailure_emptyInput (hempty.imp decide_eq_true decide_eq_true)
    exact List.mem_cons_of_mem _ (List.mem_append_left [0x0000000B#32, 0x00000013#32] hstatus)
  · simp
  · exact List.mem_cons_self

theorem exec_decode_status {s t : State} (h : exec .decode s = .next t) :
    t.status ∈ [0x00000002#32, 0x0000000F#32, 0x00000013#32] := by
  rcases execDecode_next h with ⟨-, rfl⟩ | ⟨-, S, -, ⟨-, rfl⟩ | ⟨k, -, ⟨-, -, rfl⟩ | ⟨-, rfl⟩⟩⟩
  · simp
  · simp
  · simp
  · exact List.mem_cons_self

/-- The engine ends every command with one of the nine STATUS values (R26). -/
theorem engineStep_status {s t : State} (h : engineStep s = .next t) : t.status ∈ statusValues := by
  rcases engineStep_cases s with ⟨e, -, hraise⟩ | ⟨i, -, hexec⟩
  · cases hraise.symm.trans h
    simp [statusValues]
  · rw [hexec] at h
    cases i with
    | encode =>
      have hsub : [0x00000002#32, 0x00000027#32, 0x00000047#32, 0x00000067#32, 0x0000000B#32, 0x00000013#32] ⊆
        statusValues := by decide
      exact hsub (exec_encode_status h)
    | decode =>
      have hsub : [0x00000002#32, 0x0000000F#32, 0x00000013#32] ⊆ statusValues := by decide
      exact hsub (exec_decode_status h)

/-- Settles O43: each way a command ends names its code, and a word that is neither command's decodes to none. -/
theorem resultCodesOfEachCommand : Obligations.ResultCodesOfEachCommand := by
  intro s t
  refine ⟨exec_encode_status, exec_decode_status, fun hencode hdecode h => ?_⟩
  rcases engineStep_cases s with ⟨e, -, hraise⟩ | ⟨i, hi, -⟩
  · cases hraise.symm.trans h
    exact statusOfFailure_illegalCommand
  · have hword := eq_encode_of_decodeCmd hi
    cases i with
    | encode => exact absurd hword hencode
    | decode => exact absurd hword hdecode

/-! #### A step by the agent that acts (R12, R63) -/

/-- Everything the engine's step can do: the command fails, or the latched ENCODE has placed its frame, or the latched DECODE
has delivered its message (R165, R166). -/
theorem engineStep_next {s t : State} (h : engineStep s = .next t) :
    (∃ f, t = s.raise f) ∨
    (EncodeAccepts s ∧ ∃ m pix, s.message = some m ∧ insertBits s.pix 0 (frame m) = some pix ∧
      t = ({ s with pix := pix } : State).finish (8 * s.messageLength)) ∨
    (decodeCmd s.cmd = .ok .decode ∧ s.pixelCount ≤ s.cfg.pixMax ∧
      ∃ S k, s.stream = some S ∧ FirstDelimAt S k ∧ t = deliverMessage s S k) := by
  rcases engineStep_cases s with ⟨e, -, hraise⟩ | ⟨i, hi, hexec⟩
  · cases hraise.symm.trans h
    exact .inl ⟨_, rfl⟩
  · rw [hexec] at h
    cases i with
    | encode => exact (exec_encode_next h).imp_right .inl
    | decode => exact (exec_decode_next h).imp_right fun hdelivered => .inr ⟨hi, hdelivered⟩

/-- `step_next` by agent: nobody acts, the engine performs the latched command, the host makes a transaction, or the platform
resets. -/
theorem step_next_by_agent {s t : State} (h : step s = .next t) :
    (∃ rest, t = s.afterTurn rest) ∨
    (EnginePerforms s t ∧ ∃ rest, engineStep (s.afterTurn rest) = .next t) ∨
    (∃ x rest, s.turns = .host x :: rest ∧ hostAct x (s.afterTurn rest) = .next t) ∨
    (∃ rest, s.turns = .reset :: rest ∧ t = (s.afterTurn rest).powerReset) := by
  rcases step_next h with ⟨-, -, rfl⟩ | ⟨rest, -, -, rfl⟩ | ⟨hb, ht, hengine⟩ | ⟨rest, hb, ht, hengine⟩ |
    ⟨rest, hb, ht, hengine⟩ | hhost | hreset
  · exact .inl ⟨t.turns, rfl⟩
  · exact .inl ⟨rest, rfl⟩
  · exact .inr (.inl ⟨⟨hb, .inl ⟨ht, hengine⟩⟩, s.turns, hengine⟩)
  · exact .inr (.inl ⟨⟨hb, .inr (.inl ⟨rest, ht, hengine⟩)⟩, rest, hengine⟩)
  · exact .inr (.inl ⟨⟨hb, .inr (.inr ⟨rest, ht, hengine⟩)⟩, s.turns, hengine⟩)
  · exact .inr (.inr (.inl hhost))
  · exact .inr (.inr (.inr hreset))

/-! #### The invariant (R39, R59) -/

section
variable {s : State}

theorem Inv.afterTurn (h : Inv s) (rest : List Turn) : Inv (s.afterTurn rest) := { h with }

theorem Inv.reply (h : Inv s) (r : Reply) : Inv (s.reply r) := { h with }

theorem Inv.with_pixcnt (h : Inv s) (v : Word) : Inv { s with pixcnt := v } := { h with }

theorem Inv.with_msglen (h : Inv s) (v : Word) : Inv { s with msglen := v } := { h with }

theorem Inv.with_pix (h : Inv s) {pix : Memory} (hwf : pix.wf) (hbelow : pix.Below (4 * s.cfg.pixMax)) :
    Inv { s with pix := pix } :=
  { h with pix_wf := hwf, pix_below := hbelow }

theorem Inv.with_msg (h : Inv s) {msg : Memory} (hwf : msg.wf) (hbelow : msg.Below s.cfg.msgMax) :
    Inv { s with msg := msg } :=
  { h with msg_wf := hwf, msg_below := hbelow }

theorem Inv.issue (h : Inv s) (w : Word) : Inv (s.issue w) :=
  { h with
    status_value := by simp [statusBusy, statusValues]
    dpos_zero := by simp
    cmd_zero := by simp }

theorem Inv.finish (h : Inv s) (d : Nat) : Inv (s.finish d) :=
  { h with
    status_value := by simp [statusDone, statusValues]
    dpos_zero := by simp
    cmd_zero := by simp }

theorem Inv.raise (h : Inv s) {f : Failure} (hf : statusOfFailure f ∈ statusValues) : Inv (s.raise f) :=
  { h with
    status_value := hf
    dpos_zero := fun _ => rfl
    cmd_zero := by simp }

theorem Inv.powerReset (h : Inv s) : Inv s.powerReset :=
  { resetSatisfiesTheInvariant s.cfg s.turns h.cfg_valid with }

end

/-- A write inside the memory's range keeps the range (R59). -/
theorem Memory.Below.set {mem : Memory} {bound : Nat} (hmem : mem.Below bound) {a : Nat} (ha : a < bound) (v : Byte) :
    (mem.set a v).Below bound := by
  intro c hc
  rcases Memory.mem_set hc with rfl | hold
  · exact ha
  · exact hmem c hold

/-- The scan over the first `3*n` payload bits stays inside the first `4*n` bytes (R59, R110). -/
theorem Memory.Below.insertBits {mem mem' : Memory} {n bound : Nat} {bs : List Bool} (hmem : mem.Below bound)
    (h : insertBits mem 0 bs = some mem') (hbits : bs.length ≤ 3 * n) (hn : 4 * n ≤ bound) : mem'.Below bound := by
  obtain ⟨-, -, -, hlisted⟩ := insertBits_spec h
  intro c hc
  rcases hlisted c hc with ⟨i, hi, hci⟩ | hold
  · have hlt : addrOf (0 + i) < 4 * n := addrOf_lt (by omega)
    omega
  · exact hmem c hold

theorem engineStep_inv {s t : State} (hinv : Inv s) (h : engineStep s = .next t) : Inv t := by
  have hstatus := engineStep_status h
  rcases engineStep_next h with ⟨f, rfl⟩ | ⟨⟨hn, -, -, -, hcap⟩, m, pix, hm, hpix, rfl⟩ |
    ⟨-, hn, S, k, hS, hk, rfl⟩
  · exact hinv.raise hstatus
  · obtain ⟨-, -, hwf, -⟩ := insertBits_spec hpix
    obtain ⟨hlen, -⟩ := State.message_eq_some.1 hm
    have hbelow := hinv.pix_below.insertBits hpix (n := s.pixelCount) (by rw [frame_length, hlen]; exact hcap)
      (Nat.mul_le_mul_left 4 hn)
    exact (hinv.with_pix (hwf hinv.pix_wf) hbelow).finish _
  · have hfit : k / 8 ≤ s.cfg.msgMax := hinv.cfg_valid.div_eight_le_msgMax hn (hk.add_sixteen_le hS)
    have hmsg := hinv.with_msg (Memory.wf_setBytes hinv.msg_wf 0 _) (hinv.msg_below.setBytes_fromBits S hfit)
    exact (hmsg.with_msglen _).finish _

theorem hostAct_inv {x : Transaction} {s t : State} (hinv : Inv s) (h : hostAct x s = .next t) : Inv t := by
  rcases hostAct_next h with ⟨w, -, -, rfl⟩ | ⟨v, -, -, rfl⟩ | ⟨v, -, -, rfl⟩ | ⟨a, v, -, -, ha, rfl⟩ |
    ⟨j, v, -, -, hj, rfl⟩ | ⟨r, -, rfl⟩
  · exact hinv.issue w
  · exact hinv.with_pixcnt v
  · exact hinv.with_msglen v
  · exact hinv.with_pix (Memory.wf_set hinv.pix_wf a v) (hinv.pix_below.set ha v)
  · exact hinv.with_msg (Memory.wf_set hinv.msg_wf j v) (hinv.msg_below.set hj v)
  · exact hinv.reply r

/-- Settles O50: the engine, the host and reset each keep the invariant. -/
theorem stepKeepsTheInvariant : Obligations.StepKeepsTheInvariant := by
  intro s t hinv h
  rcases step_next_by_agent h with ⟨rest, rfl⟩ | ⟨-, rest, hengine⟩ | ⟨x, rest, -, hhost⟩ | ⟨rest, -, rfl⟩
  · exact hinv.afterTurn rest
  · exact engineStep_inv (hinv.afterTurn rest) hengine
  · exact hostAct_inv (hinv.afterTurn rest) hhost
  · exact (hinv.afterTurn rest).powerReset

theorem StepsTo.inv {k : Nat} {s t : State} (hinv : Inv s) (h : StepsTo k s t) : Inv t := by
  induction k generalizing s with
  | zero =>
    obtain rfl : s = t := h
    exact hinv
  | succ k ih =>
    obtain ⟨u, hstep, hrest⟩ := h
    exact ih (stepKeepsTheInvariant s u hinv hstep) hrest

/-- Settles O52: the reset state has the invariant and every step keeps it; the STATUS values are a part of it. -/
theorem reachableStatesSatisfyTheInvariant : Obligations.ReachableStatesSatisfyTheInvariant := by
  rintro s ⟨c, turns, k, hvalid, hsteps⟩
  have hinv : Inv s := hsteps.inv (resetSatisfiesTheInvariant c turns hvalid)
  exact ⟨hinv, hinv.status_value⟩

/-! #### Who writes which register (R20 to R29) -/

/-- The host writes CMD (with STATUS, as an issue), PIXCNT and MSGLEN, each by its own `WR`, and never DPOS (R80, R88). -/
theorem hostAct_registers {x : Transaction} {s t : State} (h : hostAct x s = .next t) :
    (t.cmd = s.cmd ∨ ∃ w, x = .wr 0 w ∧ t.cmd = w) ∧
    (t.pixcnt = s.pixcnt ∨ ∃ v, x = .wr 2 v ∧ t.pixcnt = v) ∧
    (t.msglen = s.msglen ∨ ∃ v, x = .wr 3 v ∧ t.msglen = v) ∧
    t.dpos = s.dpos ∧
    (t.status = s.status ∨ ∃ w, x = .wr 0 w ∧ s.runState ≠ .busy ∧ t.status = statusBusy) := by
  rcases hostAct_next h with ⟨w, rfl, hb, rfl⟩ | ⟨v, rfl, -, rfl⟩ | ⟨v, rfl, -, rfl⟩ | ⟨a, v, -, -, -, rfl⟩ |
    ⟨j, v, -, -, -, rfl⟩ | ⟨r, -, rfl⟩
  · exact ⟨.inr ⟨w, rfl, rfl⟩, .inl rfl, .inl rfl, rfl, .inr ⟨w, rfl, hb, rfl⟩⟩
  · exact ⟨.inl rfl, .inr ⟨v, rfl, rfl⟩, .inl rfl, rfl, .inl rfl⟩
  · exact ⟨.inl rfl, .inl rfl, .inr ⟨v, rfl, rfl⟩, rfl, .inl rfl⟩
  all_goals exact ⟨.inl rfl, .inl rfl, .inl rfl, rfl, .inl rfl⟩

/-- The engine never writes CMD or PIXCNT, and writes MSGLEN only at the end of a DECODE that succeeds (R147, R165, R166). -/
theorem engineStep_registers {s t : State} (h : engineStep s = .next t) :
    t.cmd = s.cmd ∧ t.pixcnt = s.pixcnt ∧
    (t.msglen = s.msglen ∨ (decodeCmd s.cmd = .ok .decode ∧ t.runState = .done)) := by
  rcases engineStep_next h with ⟨f, rfl⟩ | ⟨-, m, pix, -, -, rfl⟩ | ⟨hcmd, -, S, k, -, -, rfl⟩
  · exact ⟨rfl, rfl, .inl rfl⟩
  · exact ⟨rfl, rfl, .inl rfl⟩
  · exact ⟨rfl, rfl, .inr ⟨hcmd, deliverMessage_runState s S k⟩⟩

/-- Settles O57: without reset a register is written by the engine as it ends a command, or by the host's `WR`. -/
theorem registersHaveTheirOwnWriters : Obligations.RegistersHaveTheirOwnWriters := by
  intro s t h hnoreset
  rcases step_next_by_agent h with ⟨rest, rfl⟩ | ⟨hperforms, rest, hengine⟩ | ⟨x, rest, hturns, hhost⟩ |
    ⟨rest, hturns, -⟩
  · exact ⟨.inl rfl, .inl rfl, .inl rfl, .inl rfl, .inl rfl⟩
  · obtain ⟨hcmd, hpixcnt, hmsglen⟩ := engineStep_registers hengine
    have hended := engineStep_runState hengine
    exact ⟨.inl hcmd, .inl hpixcnt, hmsglen.imp_right fun hdecoded => .inr ⟨hperforms, hdecoded⟩,
      .inr ⟨hperforms, hended⟩, .inr (.inl ⟨hperforms, hended⟩)⟩
  · obtain ⟨hcmd, hpixcnt, hmsglen, hdpos, hstatus⟩ := hostAct_registers hhost
    refine ⟨hcmd.imp_right ?_, hpixcnt.imp_right ?_, hmsglen.imp_right ?_, .inl hdpos, hstatus.imp_right ?_⟩
    · rintro ⟨w, rfl, hw⟩
      exact ⟨w, rest, hturns, hw⟩
    · rintro ⟨v, rfl, hv⟩
      exact ⟨v, rest, hturns, hv⟩
    · rintro ⟨v, rfl, hv⟩
      exact .inl ⟨v, rest, hturns, hv⟩
    · rintro ⟨w, rfl, -, hbusy⟩
      exact .inr ⟨w, rest, hturns, hbusy⟩
  · exact absurd hturns (hnoreset rest)

/-- Settles O55: STATE is a field of STATUS, which the host writes by an issue only, and the engine as it ends a command. -/
theorem stateTransitions : Obligations.StateTransitions := by
  intro s t h hchanged
  rcases step_next_by_agent h with ⟨rest, rfl⟩ | ⟨hperforms, rest, hengine⟩ | ⟨x, rest, hturns, hhost⟩ |
    ⟨rest, hturns, rfl⟩
  · exact absurd (State.afterTurn_runState s rest) hchanged
  · exact .inr (.inr ⟨hperforms, engineStep_runState hengine⟩)
  · obtain ⟨-, -, -, -, hkept | ⟨w, rfl, hb, hbusy⟩⟩ := hostAct_registers hhost
    · exact absurd (congrArg stateField hkept) hchanged
    · exact .inr (.inl ⟨hb, (congrArg stateField hbusy).trans stateField_busy, w, rest, hturns⟩)
  · exact .inl ⟨State.powerReset_runState _, rest, hturns⟩

/-! #### Defined bytes stay defined (R33) -/

theorem Memory.isSome_get_set {m : Memory} {b : Nat} (h : (m.get b).isSome = true) (a : Nat) (v : Byte) :
    ((m.set a v).get b).isSome = true := by
  rw [Memory.get_set]
  split
  · rfl
  · exact h

theorem Memory.isSome_get_setBytes {m : Memory} {b : Nat} (h : (m.get b).isSome = true) (j : Nat) (r : List Byte) :
    ((m.setBytes j r).get b).isSome = true := by
  induction r generalizing m j with
  | nil => exact h
  | cons v r ih => exact ih (Memory.isSome_get_set h j v) (j + 1)

theorem isSome_get_insertBits {m m' : Memory} {i b : Nat} {bs : List Bool} (h : (m.get b).isSome = true)
    (hins : insertBits m i bs = some m') : (m'.get b).isSome = true := by
  obtain ⟨hbits, hrest, -, -⟩ := insertBits_spec hins
  by_cases hscanned : ∃ t < bs.length, b = addrOf (i + t)
  · obtain ⟨t, ht, rfl⟩ := hscanned
    obtain ⟨old, -, hnew⟩ := hbits t bs[t] (List.getElem?_eq_getElem ht)
    rw [hnew, Option.isSome_some]
  · rwa [hrest b fun t ht heq => hscanned ⟨t, ht, heq⟩]

theorem engineStep_defined {s t : State} (h : engineStep s = .next t) (a : Nat) :
    ((s.pix.get a).isSome = true → (t.pix.get a).isSome = true) ∧
    ((s.msg.get a).isSome = true → (t.msg.get a).isSome = true) := by
  rcases engineStep_next h with ⟨f, rfl⟩ | ⟨-, m, pix, -, hpix, rfl⟩ | ⟨-, -, S, k, -, -, rfl⟩
  · exact ⟨id, id⟩
  · exact ⟨fun hdef => isSome_get_insertBits hdef hpix, id⟩
  · exact ⟨id, fun hdef => Memory.isSome_get_setBytes hdef 0 _⟩

theorem hostAct_defined {x : Transaction} {s t : State} (h : hostAct x s = .next t) (a : Nat) :
    ((s.pix.get a).isSome = true → (t.pix.get a).isSome = true) ∧
    ((s.msg.get a).isSome = true → (t.msg.get a).isSome = true) := by
  rcases hostAct_next h with ⟨w, -, -, rfl⟩ | ⟨v, -, -, rfl⟩ | ⟨v, -, -, rfl⟩ | ⟨b, v, -, -, -, rfl⟩ |
    ⟨j, v, -, -, -, rfl⟩ | ⟨r, -, rfl⟩
  case inr.inr.inr.inl => exact ⟨fun hdef => Memory.isSome_get_set hdef b v, id⟩
  case inr.inr.inr.inr.inl => exact ⟨id, fun hdef => Memory.isSome_get_set hdef j v⟩
  all_goals exact ⟨id, id⟩

/-- Settles O56: the engine's scans and the host's writes make bytes defined, and only reset empties a memory. -/
theorem definedBytesStayDefined : Obligations.DefinedBytesStayDefined := by
  intro s t a h hnoreset
  rcases step_next_by_agent h with ⟨rest, rfl⟩ | ⟨-, rest, hengine⟩ | ⟨x, rest, -, hhost⟩ | ⟨rest, hturns, -⟩
  · exact ⟨id, id⟩
  · exact engineStep_defined hengine a
  · exact hostAct_defined hhost a
  · exact absurd hturns (hnoreset rest)

end Sys2Proof.Machine

/-! ### What the commands read and write in the memories, and when the engine acts -/

namespace Sys2Proof.Machine

/-! #### ENCODE's tests and its scan, told apart (R120, R121) -/

/-- The failure ENCODE ends in before it reads any memory, and none when it goes on to its scan: a function of the parameters
and the two counts alone (R78, R120, R121). -/
def encodeFailure (c : Config) (n l : Nat) : Option Failure :=
  if c.pixMax < n ∨ c.msgMax < l then some .illegalCommand
  else if n = 0 ∨ l = 0 then some (.emptyInput (decide (n = 0)) (decide (l = 0)))
  else if capOK n l = false then some .capacityExceeded
  else none

theorem State.encodeInRange_eq_false_iff {s : State} :
    s.encodeInRange = false ↔ s.cfg.pixMax < s.pixelCount ∨ s.cfg.msgMax < s.messageLength := by
  rw [← Bool.not_eq_true, State.encodeInRange_iff, not_and_or, not_le, not_le]

theorem exec_encode_eq (s : State) : exec .encode s =
    (encodeFailure s.cfg s.pixelCount s.messageLength).elim (placeMessage s) fun f => .next (s.raise f) := by
  simp only [exec, execEncode, encodeFailure, State.encodeInRange_eq_false_iff]
  split_ifs <;> rfl

/-- Everything the scan needs and does when it answers a next state (R120, R122, R126). -/
theorem placeMessage_eq_next_iff {s t : State} : placeMessage s = .next t ↔
    ∃ m pix, s.message = some m ∧ insertBits s.pix 0 (frame m) = some pix ∧
      t = ({ s with pix := pix } : State).finish (8 * s.messageLength) := by
  unfold placeMessage
  cases s.message with
  | none => simp
  | some m => cases hpix : insertBits s.pix 0 (frame m) <;> simp [hpix, eq_comm]

/-- The frame of a message of `L` bytes, as the scan meets it: `8*L + 16` bits (R93, R101). -/
theorem State.frame_length_of_message {s : State} {m : List Byte} (hm : s.message = some m) :
    (frame m).length = 8 * s.messageLength + 16 := by
  obtain ⟨hlen, -⟩ := State.message_eq_some.1 hm
  rw [frame_length, hlen]

/-- The scan leaves every byte alone but those of the first `8*L + 16` payload bits (R123). -/
theorem get_insertBits_frame_of_ne {s : State} {m : List Byte} {pix : Memory} (hm : s.message = some m)
    (hpix : insertBits s.pix 0 (frame m) = some pix) {a : Nat}
    (ha : ∀ i < 8 * s.messageLength + 16, a ≠ addrOf i) : pix.get a = s.pix.get a := by
  obtain ⟨-, hrest, -, -⟩ := insertBits_spec hpix
  refine hrest a fun i hi => ?_
  rw [Nat.zero_add]
  exact ha i (State.frame_length_of_message hm ▸ hi)

/-- Settles O28: a failure writes STATUS and DPOS, and a success beside them the bytes of its scan. -/
theorem encodeLeavesTheRestAlone : Obligations.EncodeLeavesTheRestAlone := by
  intro s t h
  rcases exec_encode_next h with ⟨f, rfl⟩ | ⟨-, m, pix, hm, hpix, rfl⟩
  · exact ⟨rfl, rfl, rfl, rfl, rfl, rfl, rfl, fun a _ => rfl⟩
  · exact ⟨rfl, rfl, rfl, rfl, rfl, rfl, rfl, fun a ha => get_insertBits_frame_of_ne hm hpix ha⟩

/-! #### What a scan reads is all it depends on (R113, R115, R169) -/

/-- Two scans whose reads agree give the same. -/
theorem collect_congr {α : Type} {f g : Nat → Option α} {i n : Nat} (h : ∀ t < n, f (i + t) = g (i + t)) :
    collect f i n = collect g i n := by
  refine Option.ext fun xs => ?_
  rw [collect_eq_some, collect_eq_some]
  exact and_congr_right fun _ => forall₂_congr fun t ht => by rw [h t ht]

/-- Over memories that agree on the bytes it touches, the scan of ENCODE succeeds alike and leaves these bytes alike. -/
theorem insertBits_congr {m m' n : Memory} {i : Nat} {bs : List Bool} (hins : insertBits m i bs = some m')
    (h : ∀ t < bs.length, n.get (addrOf (i + t)) = m.get (addrOf (i + t))) :
    ∃ n', insertBits n i bs = some n' ∧ ∀ t < bs.length, n'.get (addrOf (i + t)) = m'.get (addrOf (i + t)) := by
  have hdefined : (insertBits n i bs).isSome = true := insertBits_isSome.2 fun t ht => by
    rw [h t ht]
    exact insertBits_isSome.1 (Option.isSome_of_eq_some hins) t ht
  obtain ⟨n', hn'⟩ := Option.isSome_iff_exists.1 hdefined
  refine ⟨n', hn', fun t ht => ?_⟩
  obtain ⟨old, hold, hm⟩ := (insertBits_spec hins).1 t bs[t] (List.getElem?_eq_getElem ht)
  obtain ⟨old', hold', hn⟩ := (insertBits_spec hn').1 t bs[t] (List.getElem?_eq_getElem ht)
  obtain rfl : old' = old := Option.some.inj (hold'.symm.trans ((h t ht).trans hold))
  rw [hm, hn]

/-- Settles O31: the tests see the parameters and the counts only, the message its own bytes, and the scan the bytes it
writes. -/
theorem encodeDependsOnItsOperandsOnly : Obligations.EncodeDependsOnItsOperandsOnly := by
  intro s s' t hcfg hpixcnt hmsglen hmsg hpix h
  have htests : encodeFailure s'.cfg s'.pixelCount s'.messageLength =
      encodeFailure s.cfg s.pixelCount s.messageLength := by
    simp only [State.pixelCount, State.messageLength, hcfg, hpixcnt, hmsglen]
  rw [exec_encode_eq] at h
  rw [exec_encode_eq, htests]
  cases hfails : encodeFailure s.cfg s.pixelCount s.messageLength with
  | some f =>
    rw [hfails] at h
    cases h
    exact ⟨s'.raise f, rfl, rfl, rfl, hpix⟩
  | none =>
    rw [hfails] at h
    obtain ⟨m, pix, hm, hscan, rfl⟩ := placeMessage_eq_next_iff.1 h
    have hm' : s'.message = some m := by
      rw [← hm, State.message, State.message, State.messageLength, hmsglen]
      exact collect_congr fun j hj => by simpa using hmsg j hj
    have hlen := State.frame_length_of_message hm
    obtain ⟨pix', hscan', halike⟩ := insertBits_congr (n := s'.pix) hscan fun i hi => by
      simpa using hpix i (hlen ▸ hi)
    refine ⟨_, placeMessage_eq_next_iff.2 ⟨m, pix', hm', hscan', rfl⟩, rfl, ?_, fun i hi => ?_⟩
    · simp [State.messageLength, hmsglen]
    · simpa using halike i (hlen ▸ hi)

/-! #### DECODE's test and its end, told apart (R140) -/

/-- DECODE answers a next state exactly when its count is out of range or its stream can be collected. -/
theorem exec_decode_eq_next_iff {s t : State} : exec .decode s = .next t ↔
    (s.decodeInRange = false ∧ t = s.raise .illegalCommand) ∨
    (s.decodeInRange = true ∧ ∃ S, s.stream = some S ∧ t = endDecode s S) := by
  simp only [exec, execDecode]
  cases s.decodeInRange <;> cases s.stream <;> simp [eq_comm]

/-- Once the stream is collected, PIX has no further part in DECODE. -/
theorem endDecode_with_pix (s : State) (mem : Memory) (S : List Bool) :
    endDecode { s with pix := mem } S = { endDecode s S with pix := mem } := by
  unfold endDecode
  split
  · rfl
  · split <;> rfl

/-- DECODE never writes PIX (R148). -/
theorem exec_decode_pix {s t : State} (h : exec .decode s = .next t) : t.pix = s.pix := by
  rcases exec_decode_next h with ⟨f, rfl⟩ | ⟨-, S, k, -, -, rfl⟩
  · rfl
  · exact deliverMessage_pix s S k

/-- Settles O38: the stream is made of bit 0 of the payload bytes, and DECODE sees PIX through the stream alone. -/
theorem decodeSeesOnlyPayloadLsbs : Obligations.DecodeSeesOnlyPayloadLsbs := by
  intro s t mem hlsb h
  have hstream : ({ s with pix := mem } : State).stream = s.stream :=
    collect_congr fun i hi => by simpa using hlsb i hi
  rw [exec_decode_eq_next_iff, hstream]
  rcases exec_decode_eq_next_iff.1 h with ⟨hrange, rfl⟩ | ⟨hrange, S, hS, rfl⟩
  · exact .inl ⟨hrange, rfl⟩
  · exact .inr ⟨hrange, S, hS, (endDecode_with_pix s mem S).symm⟩

/-! #### When a command is refused (R202) -/

/-- A command that answers has read defined bytes only. -/
theorem bytesReady_of_exec_next {i : Instr} {s t : State} (h : exec i s = .next t) : BytesReady i s := by
  cases i with
  | encode =>
    intro hacc
    obtain ⟨m, pix, hm, hpix, -⟩ := placeMessage_eq_next_iff.1 ((execEncode_of_accepts hacc).symm.trans h)
    refine ⟨State.message_isSome.1 (Option.isSome_of_eq_some hm), fun i hi => ?_⟩
    rw [← State.frame_length_of_message hm] at hi
    simpa using insertBits_isSome.1 (Option.isSome_of_eq_some hpix) i hi
  | decode =>
    intro hn
    have hrange : s.decodeInRange = true := State.decodeInRange_iff.2 hn
    rcases exec_decode_eq_next_iff.1 h with ⟨hout, -⟩ | ⟨-, S, hS, -⟩
    · simp [hrange] at hout
    · exact State.stream_isSome.1 (Option.isSome_of_eq_some hS)

/-- An undefined byte is all a command is refused for. -/
theorem exec_refused {i : Instr} {s : State} {r : Refusal} (h : exec i s = .refused r) :
    ∃ space, r = .undefinedByte space := by
  cases i with
  | encode =>
    obtain ⟨-, ⟨-, hr⟩ | ⟨m, -, -, hr⟩⟩ := execEncode_refused h
    · exact ⟨.msg, hr⟩
    · exact ⟨.pix, hr⟩
  | decode =>
    obtain ⟨-, -, hr⟩ := execDecode_refused h
    exact ⟨.pix, hr⟩

/-- Settles O46: a command answers exactly when its bytes are ready, and has no other outcome than that refusal. -/
theorem undefinedByteRefusesTheCommand : Obligations.UndefinedByteRefusesTheCommand := by
  refine fun i s => ⟨exec_next_of_bytesReady, fun hnot => ?_⟩
  cases hexec : exec i s with
  | next t => exact absurd (bytesReady_of_exec_next hexec) hnot
  | fault f => exact nomatch f
  | refused r =>
    obtain ⟨space, rfl⟩ := exec_refused hexec
    exact ⟨space, rfl⟩

/-! #### Bits 7:1 of PIX (R56) -/

/-- What `InsertLSB` keeps of a byte: all but its bit 0 (R112). -/
theorem withLSB_shiftRight_one (old : Byte) (b : Bool) : withLSB old b >>> 1 = old >>> 1 := by
  refine BitVec.eq_of_getLsbD_eq fun j _ => ?_
  rw [BitVec.getLsbD_ushiftRight, BitVec.getLsbD_ushiftRight, withLSB_getLsbD, if_neg (by omega)]

theorem insertBits_shiftRight_one {m m' : Memory} {i : Nat} {bs : List Bool} (h : insertBits m i bs = some m')
    (a : Nat) : (m'.get a).map (fun v : Byte => v >>> 1) = (m.get a).map (fun v : Byte => v >>> 1) := by
  obtain ⟨hbits, hrest, -, -⟩ := insertBits_spec h
  by_cases hscanned : ∃ t < bs.length, a = addrOf (i + t)
  · obtain ⟨t, ht, rfl⟩ := hscanned
    obtain ⟨old, hold, hnew⟩ := hbits t bs[t] (List.getElem?_eq_getElem ht)
    rw [hold, hnew, Option.map_some, Option.map_some, withLSB_shiftRight_one]
  · rw [hrest a fun t ht heq => hscanned ⟨t, ht, heq⟩]

/-- Settles O49: ENCODE's scan keeps bits 7:1 of what it writes, and nothing else a command does writes PIX. -/
theorem upperBitsArePreserved : Obligations.UpperBitsArePreserved := by
  intro i s t a h
  cases i with
  | encode =>
    rcases exec_encode_next h with ⟨f, rfl⟩ | ⟨-, m, pix, -, hpix, rfl⟩
    · rfl
    · exact insertBits_shiftRight_one hpix a
  | decode => rw [exec_decode_pix h]

/-! #### When the engine acts (R63, R65, R74; log 2) -/

/-- The engine performs the command that the word in CMD decodes to (R74). -/
theorem engineStep_of_decodeCmd {s : State} {i : Instr} (hi : decodeCmd s.cmd = .ok i) : engineStep s = exec i s := by
  rw [engineStep, hi]

/-- Settles O8: each of the three ways is the engine's step, and CMD says which command that performs. -/
theorem busyStepPerformsTheHeldCommand : Obligations.BusyStepPerformsTheHeldCommand := by
  intro s i hb hi
  refine ⟨fun ht => ?_, fun rest ht => ?_, fun rest ht => ?_⟩
  · exact (step_of_busy_nil hb ht).trans (engineStep_of_decodeCmd hi)
  · exact (step_of_busy_engine hb ht).trans (engineStep_of_decodeCmd (s := s.afterTurn rest) hi)
  · exact (step_of_busy_poll hb ht).trans (engineStep_of_decodeCmd hi)

/-- With nothing latched the engine leaves the state as it is (R63, R181). -/
theorem engineTurn_of_not_busy {s : State} (hb : s.runState ≠ .busy) : engineTurn s = .next s := if_neg hb

/-- Settles O9: in both schedules the step is the engine's turn, which has nothing to perform. -/
theorem idleEngineDoesNothing : Obligations.IdleEngineDoesNothing := by
  intro s hb
  refine ⟨fun ht => ?_, fun rest ht => ?_⟩
  · rw [step, takeTurn, ht]
    exact engineTurn_of_not_busy hb
  · rw [step, takeTurn, ht]
    exact engineTurn_of_not_busy (s := s.afterTurn rest) hb

end Sys2Proof.Machine

/-! ### The command word and the host's transactions, one at a time (30_encoding.md) -/

namespace Sys2Proof

/-! #### The command word (R70 to R75) -/

theorem decodeCmd_encode (i : Instr) : decodeCmd (encode i) = .ok i := by
  cases i <;> rfl

/-- Settles O5: the decoder reads a command's word back, and a word is made of the two fields it tests. -/
theorem decodeAndEncodeAgree : Obligations.DecodeAndEncodeAgree :=
  fun _ i => ⟨eq_encode_of_decodeCmd, fun hw => hw ▸ decodeCmd_encode i⟩

/-- Every word but the two commands' is reserved (R72, R75). -/
theorem exists_decodeCmd_error {w : Word} (hencode : w ≠ encode .encode) (hdecode : w ≠ encode .decode) :
    ∃ e, decodeCmd w = .error e := by
  cases hw : decodeCmd w with
  | error e => exact ⟨e, rfl⟩
  | ok i =>
    have hword := eq_encode_of_decodeCmd hw
    cases i with
    | encode => exact absurd hword hencode
    | decode => exact absurd hword hdecode

/-- Settles O4: the two words are the commands' encodings. -/
theorem decoderAcceptsExactlyTwoWords : Obligations.DecoderAcceptsExactlyTwoWords := by
  refine fun w => ⟨?_, ?_, exists_decodeCmd_error⟩
  · rintro rfl
    exact decodeCmd_encode .encode
  · rintro rfl
    exact decodeCmd_encode .decode

/-- Settles O3: two words are the commands' encodings; of the others OP, or else ZERO, is no command's. -/
theorem sampleWordsDecode : Obligations.SampleWordsDecode :=
  ⟨decodeCmd_encode .encode, decodeCmd_encode .decode, rfl, rfl, rfl, rfl, rfl⟩

end Sys2Proof

namespace Sys2Proof.Machine

/-! #### IllegalCommand (R75, R78, R164) -/

theorem State.raise_illegalCommand (s : State) :
    s.raise .illegalCommand = { s with dpos := 0#32, status := 0x00000013#32 } := by
  rw [State.raise, statusOfFailure_illegalCommand]

theorem engineStep_of_reserved {s : State} {e : DecodeError} (he : decodeCmd s.cmd = .error e) :
    engineStep s = .next { s with dpos := 0#32, status := 0x00000013#32 } := by
  rw [engineStep, he, ← State.raise_illegalCommand]
  rfl

/-- Settles O6: the decoder rejects the word, and the engine raises IllegalCommand. -/
theorem reservedWordEndsInIllegalCommand : Obligations.ReservedWordEndsInIllegalCommand := by
  intro s hencode hdecode
  obtain ⟨e, he⟩ := exists_decodeCmd_error hencode hdecode
  exact engineStep_of_reserved he

/-- Only IllegalCommand gives ERR 4 (R160). -/
theorem State.raise_errField_ne_four (s : State) {f : Failure} (hf : f ≠ .illegalCommand) :
    errField (s.raise f).status ≠ 4#3 := by
  rw [State.raise_status, errField_failure]
  cases f with
  | illegalCommand => exact absurd rfl hf
  | emptyInput ei em => simp [Failure.code]
  | capacityExceeded => simp [Failure.code]
  | noHiddenMessage => simp [Failure.code]

/-- Success has ERR None (R165). -/
theorem State.finish_errField_ne_four (s : State) (d : Nat) : errField (s.finish d).status ≠ 4#3 := by
  rw [State.finish_status]
  decide

theorem exec_encode_illegalCommand {s : State} (h : s.cfg.pixMax < s.pixelCount ∨ s.cfg.msgMax < s.messageLength) :
    exec .encode s = .next (s.raise .illegalCommand) := by
  rw [exec_encode_eq, encodeFailure, if_pos h, Option.elim_some]

theorem exec_decode_illegalCommand {s : State} (h : s.cfg.pixMax < s.pixelCount) :
    exec .decode s = .next (s.raise .illegalCommand) := by
  refine exec_decode_eq_next_iff.2 (.inl ⟨?_, rfl⟩)
  rw [← Bool.not_eq_true, State.decodeInRange_iff]
  exact Nat.not_le_of_lt h

/-- Settles O7: the range test comes first in both commands, and no later end of either has ERR 4. -/
theorem operandOutOfRangeIsIllegal : Obligations.OperandOutOfRangeIsIllegal := by
  intro s
  rw [← State.raise_illegalCommand]
  refine ⟨exec_encode_illegalCommand, fun hn hl t h => ?_, exec_decode_illegalCommand, fun hn t h => ?_⟩
  · have hrange : s.encodeInRange = true := State.encodeInRange_iff.2 ⟨hn, hl⟩
    rcases execEncode_next h with ⟨hout, -⟩ | ⟨-, -, rfl⟩ | ⟨-, -, -, rfl⟩ | ⟨-, m, pix, -, -, rfl⟩
    · simp [hrange] at hout
    · exact State.raise_errField_ne_four s nofun
    · exact State.raise_errField_ne_four s nofun
    · exact State.finish_errField_ne_four _ _
  · have hrange : s.decodeInRange = true := State.decodeInRange_iff.2 hn
    rcases execDecode_next h with ⟨hout, -⟩ | ⟨-, S, -, ⟨-, rfl⟩ | ⟨k, -, ⟨-, -, rfl⟩ | ⟨-, rfl⟩⟩⟩
    · simp [hrange] at hout
    · exact State.raise_errField_ne_four s nofun
    · exact State.raise_errField_ne_four s nofun
    · exact State.finish_errField_ne_four _ _

/-! #### What one transaction does (R80 to R86, R88) -/

section
variable {s : State}

theorem State.unlessBusy_of_busy (hb : s.runState = .busy) (o : Host.Outcome State Fault Refusal) :
    s.unlessBusy o = .refused .accessWhileBusy := if_pos hb

theorem State.unlessBusy_of_not_busy (hb : s.runState ≠ .busy) (o : Host.Outcome State Fault Refusal) :
    s.unlessBusy o = o := if_neg hb

theorem hostAct_wrCmd (hb : s.runState ≠ .busy) (w : Word) : hostAct (.wr 0 w) s = .next (s.issue w) := if_neg hb

theorem hostAct_wrPixcnt (hb : s.runState ≠ .busy) (v : Word) :
    hostAct (.wr 2 v) s = .next { s with pixcnt := v } := State.unlessBusy_of_not_busy hb _

theorem hostAct_wrMsglen (hb : s.runState ≠ .busy) (v : Word) :
    hostAct (.wr 3 v) s = .next { s with msglen := v } := State.unlessBusy_of_not_busy hb _

theorem hostAct_rdStatus : hostAct (.rd 1) s = .next (s.reply (.word s.status)) := rfl

theorem hostAct_rd (hb : s.runState ≠ .busy) {n : Nat} {r : Reg} (hn : Reg.ofNumber n = some r) :
    hostAct (.rd n) s = .next (s.reply (.word (s.readReg r))) := by
  simp only [hostAct, hostRd, hn]
  cases r with
  | status => rfl
  | cmd => exact State.unlessBusy_of_not_busy hb _
  | pixcnt => exact State.unlessBusy_of_not_busy hb _
  | msglen => exact State.unlessBusy_of_not_busy hb _
  | dpos => exact State.unlessBusy_of_not_busy hb _

theorem hostAct_poll : hostAct .poll s = .next (s.reply (.word s.status)) := rfl

theorem hostAct_wrPix (hb : s.runState ≠ .busy) (a : Nat) (v : Byte) : hostAct (.wrPix a v) s =
    if a < 4 * s.cfg.pixMax then .next { s with pix := s.pix.set a v } else .refused (.outOfRange .pix a) :=
  State.unlessBusy_of_not_busy hb _

theorem hostAct_wrMsg (hb : s.runState ≠ .busy) (j : Nat) (v : Byte) : hostAct (.wrMsg j v) s =
    if j < s.cfg.msgMax then .next { s with msg := s.msg.set j v } else .refused (.outOfRange .msg j) :=
  State.unlessBusy_of_not_busy hb _

theorem hostAct_rdPix (hb : s.runState ≠ .busy) (a : Nat) : hostAct (.rdPix a) s =
    if a < 4 * s.cfg.pixMax then s.replyByte .pix (s.pix.get a) else .refused (.outOfRange .pix a) :=
  State.unlessBusy_of_not_busy hb _

theorem hostAct_rdMsg (hb : s.runState ≠ .busy) (j : Nat) : hostAct (.rdMsg j) s =
    if j < s.cfg.msgMax then s.replyByte .msg (s.msg.get j) else .refused (.outOfRange .msg j) :=
  State.unlessBusy_of_not_busy hb _

/-- While BUSY nothing but STATUS is to be had (R200, R201). -/
theorem hostAct_refused_of_busy (hb : s.runState = .busy) {x : Transaction} (hrd : x ≠ .rd 1) (hpoll : x ≠ .poll) :
    ∃ r, hostAct x s = .refused r := by
  cases x with
  | wr n v =>
    match n with
    | 0 => exact ⟨.issueWhileBusy, if_pos hb⟩
    | 1 => exact ⟨_, rfl⟩
    | 2 => exact ⟨_, State.unlessBusy_of_busy hb _⟩
    | 3 => exact ⟨_, State.unlessBusy_of_busy hb _⟩
    | 4 => exact ⟨_, rfl⟩
    | n + 5 => exact ⟨_, rfl⟩
  | rd n =>
    match n with
    | 0 => exact ⟨_, State.unlessBusy_of_busy hb _⟩
    | 1 => exact absurd rfl hrd
    | 2 => exact ⟨_, State.unlessBusy_of_busy hb _⟩
    | 3 => exact ⟨_, State.unlessBusy_of_busy hb _⟩
    | 4 => exact ⟨_, State.unlessBusy_of_busy hb _⟩
    | n + 5 => exact ⟨_, rfl⟩
  | wrPix a v => exact ⟨_, State.unlessBusy_of_busy hb _⟩
  | rdPix a => exact ⟨_, State.unlessBusy_of_busy hb _⟩
  | wrMsg j v => exact ⟨_, State.unlessBusy_of_busy hb _⟩
  | rdMsg j => exact ⟨_, State.unlessBusy_of_busy hb _⟩
  | poll => exact absurd rfl hpoll
  | odd y => exact ⟨_, rfl⟩

/-- A transaction without a meaning by its form has none in any state (R203, R204, R206). -/
theorem hostAct_refused_of_illFormed {x : Transaction} (h : x.wellFormed s.cfg = false) :
    ∃ r, hostAct x s = .refused r := by
  by_cases hb : s.runState = .busy
  · exact hostAct_refused_of_busy hb (by rintro rfl; simp [Transaction.wellFormed] at h)
      (by rintro rfl; simp [Transaction.wellFormed] at h)
  cases x with
  | wr n v =>
    match n with
    | 0 => simp [Transaction.wellFormed] at h
    | 1 => exact ⟨_, rfl⟩
    | 2 => simp [Transaction.wellFormed] at h
    | 3 => simp [Transaction.wellFormed] at h
    | 4 => exact ⟨_, rfl⟩
    | n + 5 => exact ⟨_, rfl⟩
  | rd n =>
    obtain ⟨k, rfl⟩ := Nat.exists_eq_add_of_le' (not_lt.1 (of_decide_eq_false h))
    exact ⟨_, rfl⟩
  | wrPix a v => exact ⟨_, (hostAct_wrPix hb a v).trans (if_neg (of_decide_eq_false h))⟩
  | rdPix a => exact ⟨_, (hostAct_rdPix hb a).trans (if_neg (of_decide_eq_false h))⟩
  | wrMsg j v => exact ⟨_, (hostAct_wrMsg hb j v).trans (if_neg (of_decide_eq_false h))⟩
  | rdMsg j => exact ⟨_, (hostAct_rdMsg hb j).trans (if_neg (of_decide_eq_false h))⟩
  | poll => simp [Transaction.wellFormed] at h
  | odd y => exact ⟨_, rfl⟩

/-! #### The step in which the host makes a transaction (R12, R200, R202) -/

variable {x : Transaction} {rest : List Turn}

theorem step_of_host_not_busy (ht : s.turns = .host x :: rest) (hb : s.runState ≠ .busy) :
    step s = hostAct x (s.afterTurn rest) := by
  simp [step, takeTurn, ht, hostTurn, hb]

/-- While BUSY with a command that has a meaning, a transaction other than `POLL` is looked at (log 5). -/
theorem step_of_host_ready (ht : s.turns = .host x :: rest) (hb : s.runState = .busy) (hpoll : x ≠ .poll)
    (hready : CommandReady s) : step s = hostAct x (s.afterTurn rest) := by
  obtain ⟨t, hengine⟩ := engineStep_next_of_ready hready
  simp [step, takeTurn, ht, hostTurn, hb, hostTurnBusy, hengine, hpoll]

/-- A transaction that the block refuses is refused as a step too, in whatever state it is made. -/
theorem step_refused_of_hostAct (ht : s.turns = .host x :: rest) (hpoll : x ≠ .poll)
    (h : ∃ r, hostAct x (s.afterTurn rest) = .refused r) : ∃ r, step s = .refused r := by
  by_cases hb : s.runState = .busy
  · simp only [step, takeTurn, ht, hostTurn, hb, hostTurnBusy, if_true]
    cases engineStep s with
    | next t =>
      simp only [if_neg hpoll]
      exact h
    | fault f => exact nomatch f
    | refused r => exact ⟨r, rfl⟩
  · rwa [step_of_host_not_busy ht hb]

theorem step_refused_of_busy (ht : s.turns = .host x :: rest) (hb : s.runState = .busy) (hrd : x ≠ .rd 1)
    (hpoll : x ≠ .poll) : ∃ r, step s = .refused r :=
  step_refused_of_hostAct ht hpoll (hostAct_refused_of_busy (s := s.afterTurn rest) hb hrd hpoll)

theorem step_refused_of_illFormed (ht : s.turns = .host x :: rest) (h : x.wellFormed s.cfg = false) :
    ∃ r, step s = .refused r :=
  step_refused_of_hostAct ht (by rintro rfl; simp [Transaction.wellFormed] at h)
    (hostAct_refused_of_illFormed (s := s.afterTurn rest) h)

end

/-- Settles O10: the step is the issue, and CMD then holds the word the engine decodes. -/
theorem writingCmdIssuesTheCommand : Obligations.WritingCmdIssuesTheCommand := by
  intro s w rest hb ht
  have hfields : errField statusBusy = 0#3 ∧ eiField statusBusy = false ∧ emField statusBusy = false := by decide
  obtain ⟨herr, hei, hem⟩ := hfields
  exact ⟨(s.afterTurn rest).issue w, (step_of_host_not_busy ht hb).trans (hostAct_wrCmd (s := s.afterTurn rest) hb w),
    rfl, State.issue_runState _ w, herr, hei, hem, fun i hi => engineStep_of_decodeCmd hi,
    fun e he => engineStep_of_reserved he⟩

/-- Settles O11: a write to CMD, PIXCNT or MSGLEN writes while not BUSY; a write elsewhere is ill formed. -/
theorem registerWriteTransactions : Obligations.RegisterWriteTransactions := by
  intro s n v rest ht
  refine ⟨?_, ?_, ?_, fun hn => step_refused_of_illFormed ht ?_, fun hb => step_refused_of_busy ht hb nofun nofun⟩
  · rintro hb rfl
    exact (step_of_host_not_busy ht hb).trans (hostAct_wrCmd (s := s.afterTurn rest) hb v)
  · rintro hb rfl
    exact (step_of_host_not_busy ht hb).trans (hostAct_wrPixcnt (s := s.afterTurn rest) hb v)
  · rintro hb rfl
    exact (step_of_host_not_busy ht hb).trans (hostAct_wrMsglen (s := s.afterTurn rest) hb v)
  · simp only [Transaction.wellFormed, Bool.or_eq_false_iff, beq_eq_false_iff_ne]
    omega

/-- Settles O12: each register read is its equation, and while BUSY only STATUS has one. -/
theorem registerReadTransactions : Obligations.RegisterReadTransactions := by
  intro s n rest ht
  have hread {r : Reg} (hb : s.runState ≠ .busy) (hn : Reg.ofNumber n = some r) :
      step s = .next ((s.afterTurn rest).reply (.word (s.readReg r))) := by
    rw [step_of_host_not_busy ht hb, hostAct_rd (s := s.afterTurn rest) hb hn]
    rfl
  refine ⟨fun hb hn => hread (r := .cmd) hb (hn ▸ rfl), ?_, fun hb hn => hread (r := .pixcnt) hb (hn ▸ rfl),
    fun hb hn => hread (r := .msglen) hb (hn ▸ rfl), fun hb hn => hread (r := .dpos) hb (hn ▸ rfl),
    fun hb hn => step_refused_of_busy ht hb (by simpa using hn) nofun⟩
  rintro hready rfl
  by_cases hb : s.runState = .busy
  · exact (step_of_host_ready ht hb nofun (hready.resolve_left (not_not_intro hb))).trans hostAct_rdStatus
  · exact (step_of_host_not_busy ht hb).trans hostAct_rdStatus

/-- Settles O13: the transaction's equation, with what a byte write leaves. -/
theorem pixelTransactions : Obligations.PixelTransactions := by
  intro s a rest
  refine ⟨fun v ht => ⟨fun hb ha => ?_, fun hb ha => ?_, fun hb => step_refused_of_busy ht hb nofun nofun⟩,
    fun ht => ⟨fun v hb ha hv => ?_, fun hb ha hv => ?_, fun hb ha => ?_,
      fun hb => step_refused_of_busy ht hb nofun nofun⟩⟩
  all_goals rw [step_of_host_not_busy ht hb]
  · exact ⟨s.pix.set a v, (hostAct_wrPix (s := s.afterTurn rest) hb a v).trans (if_pos ha), s.pix.get_set_self a v,
      fun b hne => s.pix.get_set_ne v hne⟩
  · exact (hostAct_wrPix (s := s.afterTurn rest) hb a v).trans (if_neg (Nat.not_lt_of_le ha))
  · have hread := (hostAct_rdPix (s := s.afterTurn rest) hb a).trans (if_pos ha)
    exact hread.trans (congrArg ((s.afterTurn rest).replyByte .pix) hv)
  · have hread := (hostAct_rdPix (s := s.afterTurn rest) hb a).trans (if_pos ha)
    exact hread.trans (congrArg ((s.afterTurn rest).replyByte .pix) hv)
  · exact (hostAct_rdPix (s := s.afterTurn rest) hb a).trans (if_neg (Nat.not_lt_of_le ha))

/-- Settles O14, as O13 with MSG and its bound. -/
theorem messageTransactions : Obligations.MessageTransactions := by
  intro s j rest
  refine ⟨fun v ht => ⟨fun hb hj => ?_, fun hb hj => ?_, fun hb => step_refused_of_busy ht hb nofun nofun⟩,
    fun ht => ⟨fun v hb hj hv => ?_, fun hb hj hv => ?_, fun hb hj => ?_,
      fun hb => step_refused_of_busy ht hb nofun nofun⟩⟩
  all_goals rw [step_of_host_not_busy ht hb]
  · exact ⟨s.msg.set j v, (hostAct_wrMsg (s := s.afterTurn rest) hb j v).trans (if_pos hj), s.msg.get_set_self j v,
      fun b hne => s.msg.get_set_ne v hne⟩
  · exact (hostAct_wrMsg (s := s.afterTurn rest) hb j v).trans (if_neg (Nat.not_lt_of_le hj))
  · have hread := (hostAct_rdMsg (s := s.afterTurn rest) hb j).trans (if_pos hj)
    exact hread.trans (congrArg ((s.afterTurn rest).replyByte .msg) hv)
  · have hread := (hostAct_rdMsg (s := s.afterTurn rest) hb j).trans (if_pos hj)
    exact hread.trans (congrArg ((s.afterTurn rest).replyByte .msg) hv)
  · exact (hostAct_rdMsg (s := s.afterTurn rest) hb j).trans (if_neg (Nat.not_lt_of_le hj))

/-! #### POLL (R86) -/

/-- What is outside the block, the schedule and the host's replies, is none of the engine's (log 2, log 3). -/
theorem engineStep_outside {s t : State} (h : engineStep s = .next t) : t.turns = s.turns ∧ t.replies = s.replies := by
  rcases engineStep_next h with ⟨f, rfl⟩ | ⟨-, m, pix, -, -, rfl⟩ | ⟨-, -, S, k, -, -, rfl⟩
  · exact ⟨rfl, rfl⟩
  · exact ⟨rfl, rfl⟩
  · exact ⟨rfl, rfl⟩

/-- Settles O17: the engine's step ends the command and leaves the `POLL` at the head, where it then yields STATUS. -/
theorem pollYieldsTheFinalStatus : Obligations.PollYieldsTheFinalStatus := by
  intro s rest ht
  refine ⟨fun hb => (step_of_host_not_busy ht hb).trans hostAct_poll, fun t hb hengine => ?_⟩
  have hended : t.runState ≠ .busy := by
    rcases engineStep_runState hengine with h | h <;> simp [h]
  obtain ⟨hturns, hreplies⟩ := engineStep_outside hengine
  rw [← hreplies]
  have hlast := step_of_host_not_busy (hturns.trans ht) hended
  exact ⟨(step_of_busy_poll hb ht).trans hengine, hended, hlast.trans hostAct_poll⟩

/-! #### What ties DPOS and MSGLEN (R39) -/

theorem ResultTied.of_not_done {s : State} (h : s.runState ≠ .done) : ResultTied s :=
  ⟨fun hdone => absurd hdone h, fun hdone => absurd hdone h⟩

/-- A command that succeeds ties what it leaves in DPOS to MSGLEN (R126, R147). -/
theorem engineStep_resultTied {s t : State} (hvalid : s.cfg.Valid) (h : engineStep s = .next t) : ResultTied t := by
  have hcmd : t.cmd = s.cmd := (engineStep_registers h).1
  rcases engineStep_cases s with ⟨e, -, hraise⟩ | ⟨i, hi, hexec⟩
  · cases hraise.symm.trans h
    exact .of_not_done (by simp)
  rw [hexec] at h
  constructor
  · intro hdone hencode
    cases hi.symm.trans (hcmd ▸ hencode)
    obtain ⟨-, -, -, hmsglen, -⟩ := encodeLeavesTheRestAlone s t h
    rw [hmsglen]
    exact (dposHoldsTheDelimiterOffset .encode s t hvalid h).1 hdone rfl
  · intro hdone hdecode
    cases hi.symm.trans (hcmd ▸ hdecode)
    obtain ⟨hn, S, k, hS, hk, rfl⟩ := exec_decode_done h hdone
    have hroom := hk.add_sixteen_le hS
    rw [deliverMessage_msglen, deliverMessage_dpos, hvalid.toNat_ofNat_offset hn (by omega),
      hvalid.toNat_ofNat_offset hn (by omega)]

/-- Of the host's transactions only a write of MSGLEN can untie them: an issue ends the DONE state they are tied in. -/
theorem hostAct_resultTied {x : Transaction} {s t : State} (htied : ResultTied s) (h : hostAct x s = .next t)
    (hx : ∀ v, x ≠ .wr 3 v) : ResultTied t := by
  rcases hostAct_next h with ⟨w, -, -, rfl⟩ | ⟨v, -, -, rfl⟩ | ⟨v, rfl, -, -⟩ | ⟨a, v, -, -, -, rfl⟩ |
    ⟨j, v, -, -, -, rfl⟩ | ⟨r, -, rfl⟩
  case inl => exact .of_not_done (by simp)
  case inr.inr.inl => exact absurd rfl (hx v)
  all_goals exact ⟨htied.after_encode, htied.after_decode⟩

/-- Settles O53: the engine ties them anew, the host unties them by `WR MSGLEN` alone, and reset leaves no result. -/
theorem resultStaysTiedUntilMsglenIsWritten : Obligations.ResultStaysTiedUntilMsglenIsWritten := by
  intro s t hvalid htied h hnowrite
  have hafter (rest : List Turn) : ResultTied (s.afterTurn rest) := ⟨htied.after_encode, htied.after_decode⟩
  rcases step_next_by_agent h with ⟨rest, rfl⟩ | ⟨-, rest, hengine⟩ | ⟨x, rest, hturns, hhost⟩ | ⟨rest, -, rfl⟩
  · exact hafter rest
  · exact engineStep_resultTied (s := s.afterTurn rest) hvalid hengine
  · exact hostAct_resultTied (hafter rest) hhost fun v hx => hnowrite v rest (hx ▸ hturns)
  · exact .of_not_done (by simp)

end Sys2Proof.Machine

/-! ### The calls `Encode(px, m)` and `Decode(px)` (30_encoding.md R89) -/

namespace Sys2Proof.Machine

/-! #### What the writes of a call leave (R80, R82, R84) -/

theorem mem_encodeWrites {px m : List Byte} {x : Transaction} : x ∈ encodeWrites px m ↔
    (∃ a v, px[a]? = some v ∧ x = .wrPix a v) ∨ (∃ j v, m[j]? = some v ∧ x = .wrMsg j v) ∨
    x = .wr 2 (BitVec.ofNat 32 (px.length / 4)) ∨ x = .wr 3 (BitVec.ofNat 32 m.length) := by
  simp [encodeWrites, mem_writePixels, mem_writeMessage]

theorem mem_decodeWrites {px : List Byte} {x : Transaction} : x ∈ decodeWrites px ↔
    (∃ a v, px[a]? = some v ∧ x = .wrPix a v) ∨ x = .wr 2 (BitVec.ofNat 32 (px.length / 4)) := by
  simp [decodeWrites, mem_writePixels]

/-- Decode's writes are among Encode's, whatever the message (R89). -/
theorem decodeWrites_subset_encodeWrites (px m : List Byte) : decodeWrites px ⊆ encodeWrites px m := by
  intro x hx
  rcases mem_decodeWrites.1 hx with hpix | hcount
  · exact mem_encodeWrites.2 (.inl hpix)
  · exact mem_encodeWrites.2 (.inr (.inr (.inl hcount)))

/-- Every write of a call is a write of PIXCNT, MSGLEN or one byte. -/
theorem encodeWrites_target {px m : List Byte} {x : Transaction} (hx : x ∈ encodeWrites px m) :
    x.target.isSome = true := by
  rcases mem_encodeWrites.1 hx with ⟨a, v, -, rfl⟩ | ⟨j, v, -, rfl⟩ | rfl | rfl <;> rfl

/-- The writes of a buffer and a message that fit the memories are well formed (R203). -/
theorem encodeWrites_wellFormed {c : Config} {px m : List Byte} (hpx : px.length ≤ 4 * c.pixMax)
    (hm : m.length ≤ c.msgMax) {x : Transaction} (hx : x ∈ encodeWrites px m) : x.wellFormed c = true := by
  rcases mem_encodeWrites.1 hx with ⟨a, v, hv, rfl⟩ | ⟨j, v, hv, rfl⟩ | rfl | rfl
  · obtain ⟨ha, -⟩ := List.getElem?_eq_some_iff.1 hv
    exact decide_eq_true (by omega)
  · obtain ⟨hj, -⟩ := List.getElem?_eq_some_iff.1 hv
    exact decide_eq_true (by omega)
  · rfl
  · rfl

/-- PIX holds the buffer `px`, and PIXCNT its number of pixels. -/
structure HoldsPixels (s : State) (px : List Byte) : Prop where
  count : s.pixelCount = px.length / 4
  bytes : ∀ a < px.length, s.pix.get a = px[a]?

/-- Writes that hold a buffer's writes leave the buffer in PIX. -/
theorem Written.holdsPixels {ws : List Transaction} {s t : State} {px : List Byte} (h : Written ws s t)
    (hws : decodeWrites px ⊆ ws) (hfits : px.length / 4 < 2 ^ 32) : HoldsPixels t px where
  count := by
    rw [State.pixelCount, h.pixcnt _ (hws (mem_decodeWrites.2 (.inr rfl))), BitVec.toNat_ofNat,
      Nat.mod_eq_of_lt hfits]
  bytes := fun a ha => by
    have hbyte := List.getElem?_eq_getElem ha
    rw [hbyte, h.pix a _ (hws (mem_decodeWrites.2 (.inl ⟨a, _, hbyte, rfl⟩)))]

/-- Writes that hold a message's writes leave the message in MSG. -/
theorem Written.message {ws : List Transaction} {s t : State} {px m : List Byte} (h : Written ws s t)
    (hws : encodeWrites px m ⊆ ws) (hfits : m.length < 2 ^ 32) : t.message = some m := by
  refine State.message_eq_some.2 ⟨?_, fun j hj => ?_⟩
  · rw [State.messageLength, h.msglen _ (hws (mem_encodeWrites.2 (.inr (.inr (.inr rfl))))), BitVec.toNat_ofNat,
      Nat.mod_eq_of_lt hfits]
  · have hbyte := List.getElem?_eq_getElem hj
    rw [hbyte, h.msg j _ (hws (mem_encodeWrites.2 (.inr (.inl ⟨j, _, hbyte, rfl⟩))))]

/-- Apart means the same in every order. -/
theorem pairwise_target_of_perm {xs ys : List Transaction} (h : xs.Perm ys)
    (hys : ys.Pairwise fun x y => x.target ≠ y.target) : xs.Pairwise fun x y => x.target ≠ y.target :=
  (h.pairwise_iff fun hne => hne.symm).2 hys

/-- Encode's writes, in any order, of a buffer and a message that fit the memories (R89). -/
theorem makeTransactions_encodeWrites {s : State} {px m : List Byte} {ws : List Transaction} (hvalid : s.cfg.Valid)
    (hb : s.runState ≠ .busy) (hpx : px.length ≤ 4 * s.cfg.pixMax) (hm : m.length ≤ s.cfg.msgMax)
    (hws : ws.Perm (encodeWrites px m)) : ∃ t, makeTransactions ws s = .next t ∧ t.cfg = s.cfg ∧
      t.runState ≠ .busy ∧ HoldsPixels t px ∧ t.message = some m := by
  obtain ⟨hpixMax, hmsgMax, -⟩ := hvalid
  obtain ⟨t, ht, hwritten⟩ := makeTransactions_writes hb
    (fun x hx => ⟨encodeWrites_wellFormed hpx hm (hws.mem_iff.1 hx), encodeWrites_target (hws.mem_iff.1 hx)⟩)
    (pairwise_target_of_perm hws (encodeWrites_apart px m))
  have hsub : encodeWrites px m ⊆ ws := hws.symm.subset
  exact ⟨t, ht, hwritten.cfg, hwritten.runState ▸ hb,
    hwritten.holdsPixels (List.Subset.trans (decodeWrites_subset_encodeWrites px m) hsub) (by omega),
    hwritten.message hsub (by omega)⟩

/-- Decode's writes, in any order, of a buffer that fits PIX (R89). -/
theorem makeTransactions_decodeWrites {s : State} {px : List Byte} {ws : List Transaction} (hvalid : s.cfg.Valid)
    (hb : s.runState ≠ .busy) (hpx : px.length ≤ 4 * s.cfg.pixMax) (hws : ws.Perm (decodeWrites px)) :
    ∃ t, makeTransactions ws s = .next t ∧ t.cfg = s.cfg ∧ t.runState ≠ .busy ∧ HoldsPixels t px := by
  obtain ⟨hpixMax, -, -⟩ := hvalid
  have hmem {x : Transaction} (hx : x ∈ ws) : x ∈ encodeWrites px [] :=
    decodeWrites_subset_encodeWrites px [] (hws.mem_iff.1 hx)
  obtain ⟨t, ht, hwritten⟩ := makeTransactions_writes hb
    (fun x hx => ⟨encodeWrites_wellFormed hpx (Nat.zero_le _) (hmem hx), encodeWrites_target (hmem hx)⟩)
    (pairwise_target_of_perm hws (decodeWrites_apart px))
  exact ⟨t, ht, hwritten.cfg, hwritten.runState ▸ hb, hwritten.holdsPixels hws.symm.subset (by omega)⟩

/-! #### When the writes of a call are refused (R200, R203) -/

/-- A write is refused while BUSY, and when it is ill formed. -/
theorem makeTransaction_write_refused {s : State} {x : Transaction} (htarget : x.target.isSome = true)
    (h : s.runState = .busy ∨ x.wellFormed s.cfg = false) : ∃ r, makeTransaction x s = .refused r := by
  have hpoll : x ≠ .poll := by
    rintro rfl
    cases htarget
  rw [makeTransaction, if_neg fun hx => hpoll hx.1]
  rcases h with hb | hill
  · exact step_refused_of_busy (State.schedule_turns s x) hb (by rintro rfl; cases htarget) hpoll
  · exact step_refused_of_illFormed (s := s.schedule x) (State.schedule_turns s x) hill

/-- One write that is refused ends them all. -/
theorem makeTransactions_writes_refused {ws : List Transaction} {s : State}
    (htarget : ∀ x ∈ ws, x.target.isSome = true)
    (h : ∃ x ∈ ws, s.runState = .busy ∨ x.wellFormed s.cfg = false) : ∃ r, makeTransactions ws s = .refused r := by
  induction ws generalizing s with
  | nil =>
    obtain ⟨x, hx, -⟩ := h
    cases hx
  | cons x ws ih =>
    have hx := htarget x List.mem_cons_self
    rw [makeTransactions_cons]
    by_cases hrefused : s.runState = .busy ∨ x.wellFormed s.cfg = false
    · obtain ⟨r, hr⟩ := makeTransaction_write_refused hx hrefused
      exact ⟨r, by rw [hr, andThen_refused]⟩
    · obtain ⟨hb, hwell⟩ := not_or.1 hrefused
      obtain ⟨t, ht, hwritten⟩ := makeTransaction_write hb (Bool.eq_true_of_not_eq_false hwell) hx
      rw [ht, andThen_next]
      refine ih (fun y hy => htarget y (.tail x hy)) ?_
      obtain ⟨y, hy, hill⟩ := h
      rcases List.mem_cons.1 hy with rfl | hy
      · exact absurd hill hrefused
      · exact ⟨y, hy, by rwa [hwritten.runState, hwritten.cfg]⟩

/-- The call is refused when one of its writes is. -/
theorem andThen_makeTransactions_refused {α : Type} {ws xs : List Transaction} {s : State} {r : Refusal}
    (h : makeTransactions ws s = .refused r) (f : State → Host.Outcome α Fault Refusal) :
    andThen (makeTransactions (ws ++ xs) s) f = .refused r := by
  rw [makeTransactions_append, h]
  rfl

/-- Of the buffer's writes one is refused while BUSY, or when the buffer is longer than PIX. -/
theorem exists_decodeWrites_refused {s : State} {px : List Byte}
    (h : s.runState = .busy ∨ 4 * s.cfg.pixMax < px.length) :
    ∃ x ∈ decodeWrites px, s.runState = .busy ∨ x.wellFormed s.cfg = false := by
  rcases h with hb | hlong
  · exact ⟨_, mem_decodeWrites.2 (.inr rfl), .inl hb⟩
  · exact ⟨.wrPix (4 * s.cfg.pixMax) _, mem_decodeWrites.2 (.inl ⟨_, _, List.getElem?_eq_getElem hlong, rfl⟩),
      .inr (by simp [Transaction.wellFormed])⟩

/-- Of Encode's writes one is refused while BUSY, or when the buffer or the message is longer than its memory. -/
theorem exists_encodeWrites_refused {s : State} {px m : List Byte}
    (h : s.runState = .busy ∨ 4 * s.cfg.pixMax < px.length ∨ s.cfg.msgMax < m.length) :
    ∃ x ∈ encodeWrites px m, s.runState = .busy ∨ x.wellFormed s.cfg = false := by
  rcases or_assoc.2 h with hpx | hlong
  · obtain ⟨x, hx, hrefused⟩ := exists_decodeWrites_refused hpx
    exact ⟨x, decodeWrites_subset_encodeWrites px m hx, hrefused⟩
  · exact ⟨.wrMsg s.cfg.msgMax _, mem_encodeWrites.2 (.inr (.inl ⟨_, _, List.getElem?_eq_getElem hlong, rfl⟩)),
      .inr (by simp [Transaction.wellFormed])⟩

theorem encodeCallBy_refused {s : State} {px m : List Byte} {ws : List Transaction} (n : Nat)
    (hws : ws.Perm (encodeWrites px m))
    (h : s.runState = .busy ∨ 4 * s.cfg.pixMax < px.length ∨ s.cfg.msgMax < m.length) :
    ∃ r, encodeCallBy ws n s = .refused r := by
  obtain ⟨x, hx, hrefused⟩ := exists_encodeWrites_refused h
  obtain ⟨r, hr⟩ := makeTransactions_writes_refused (fun y hy => encodeWrites_target (hws.mem_iff.1 hy))
    ⟨x, hws.mem_iff.2 hx, hrefused⟩
  exact ⟨r, andThen_makeTransactions_refused hr _⟩

theorem decodeCallBy_refused {s : State} {px : List Byte} {ws : List Transaction} (hws : ws.Perm (decodeWrites px))
    (h : s.runState = .busy ∨ 4 * s.cfg.pixMax < px.length) : ∃ r, decodeCallBy ws s = .refused r := by
  obtain ⟨x, hx, hrefused⟩ := exists_decodeWrites_refused h
  obtain ⟨r, hr⟩ := makeTransactions_writes_refused
    (fun y hy => encodeWrites_target (decodeWrites_subset_encodeWrites px [] (hws.mem_iff.1 hy)))
    ⟨x, hws.mem_iff.2 hx, hrefused⟩
  exact ⟨r, andThen_makeTransactions_refused hr _⟩

/-! #### The issue and the POLL (R86, R88) -/

/-- The state in which the engine performs the command `i` of a call: it is issued, and the host polls. -/
def State.polledFor (s : State) (i : Instr) : State := (s.issue (encode i)).schedule .poll

@[simp] theorem State.polledFor_cfg (s : State) (i : Instr) : (s.polledFor i).cfg = s.cfg := rfl

/-- The state in which a call goes on after its `POLL`: the command has ended in `u`, and the host has read STATUS. -/
def State.afterPolling (u : State) (turns : List Turn) : State := (u.afterTurn turns).reply (.word u.status)

section
variable (u : State) (turns : List Turn)

@[simp] theorem State.afterPolling_cfg : (u.afterPolling turns).cfg = u.cfg := rfl
@[simp] theorem State.afterPolling_pix : (u.afterPolling turns).pix = u.pix := rfl
@[simp] theorem State.afterPolling_runState : (u.afterPolling turns).runState = u.runState := rfl

end

/-- The transactions of a call up to its `POLL`, when its writes lead to `t` and the command then ends in `u`. -/
theorem makeTransactions_issueAndPoll {ws : List Transaction} {s t u : State} {i : Instr}
    (hws : makeTransactions ws s = .next t) (hb : t.runState ≠ .busy) (hexec : exec i (t.polledFor i) = .next u) :
    makeTransactions (ws ++ issueAndPoll i) s = .next (u.afterPolling t.turns) := by
  have hissue : makeTransaction (.wr 0 (encode i)) t = .next (t.issue (encode i)) :=
    (makeTransaction_of_not_busy hb _).trans (hostAct_wrCmd hb _)
  have hbusy : (t.issue (encode i)).runState = .busy := State.issue_runState t _
  have hengine : engineStep (t.polledFor i) = .next u :=
    (engineStep_of_decodeCmd (s := t.polledFor i) (decodeCmd_encode i)).trans hexec
  obtain ⟨hturns, -⟩ := engineStep_outside hengine
  have hperform : step (t.polledFor i) = .next u := (step_of_busy_poll (s := t.polledFor i) hbusy rfl).trans hengine
  have hended : u.runState ≠ .busy := by
    rcases engineStep_runState hengine with h | h <;> simp [h]
  have hyield : step u = .next (u.afterPolling t.turns) :=
    (step_of_host_not_busy (x := .poll) (rest := t.turns) hturns hended).trans hostAct_poll
  have hpoll : makeTransaction .poll (t.issue (encode i)) = .next (u.afterPolling t.turns) := by
    rw [makeTransaction, if_pos ⟨rfl, hbusy⟩]
    exact (congrArg (andThen · step) hperform).trans hyield
  rw [makeTransactions_append, hws, andThen_next, issueAndPoll, makeTransactions_cons, hissue, andThen_next,
    makeTransactions_cons, hpoll, andThen_next, makeTransactions_nil]

/-- STATUS names the failure it was made from (R89, R166). -/
theorem failureNamed_statusOfFailure (k : Failure) : failureNamed (statusOfFailure k) = some k := by
  rcases k with ⟨ei, em⟩ | _ | _ | _
  · cases ei <;> cases em <;> decide
  all_goals decide

/-- A call whose command fails ends with the failure. -/
theorem call_of_raise {ws : List Transaction} {s t : State} {i : Instr} {k : Failure}
    (hws : makeTransactions ws s = .next t) (hb : t.runState ≠ .busy)
    (hexec : exec i (t.polledFor i) = .next ((t.polledFor i).raise k))
    (onDone : State → Host.Outcome Returned Fault Refusal) :
    andThen (makeTransactions (ws ++ issueAndPoll i) s) (afterPoll onDone) =
      .next ⟨((t.polledFor i).raise k).afterPolling t.turns, .failed k⟩ := by
  rw [makeTransactions_issueAndPoll hws hb hexec, andThen_next]
  simp [afterPoll, State.afterPolling, State.lastWord, nameFailure, failureNamed_statusOfFailure]

/-- A call whose command succeeds goes on with what it reads back. -/
theorem call_of_done {ws : List Transaction} {s t u : State} {i : Instr} (hws : makeTransactions ws s = .next t)
    (hb : t.runState ≠ .busy) (hexec : exec i (t.polledFor i) = .next u) (hdone : u.runState = .done)
    (onDone : State → Host.Outcome Returned Fault Refusal) :
    andThen (makeTransactions (ws ++ issueAndPoll i) s) (afterPoll onDone) = onDone (u.afterPolling t.turns) := by
  have hfield : stateField u.status = .done := hdone
  rw [makeTransactions_issueAndPoll hws hb hexec, andThen_next]
  simp [afterPoll, State.afterPolling, State.lastWord, hfield]

/-! #### Encode (R89, R120, R160) -/

theorem encodeFailure_eq_none_iff {s : State} :
    encodeFailure s.cfg s.pixelCount s.messageLength = none ↔ EncodeAccepts s := by
  rw [encodeAccepts_iff, ← Bool.not_eq_false, State.encodeInRange_eq_false_iff, encodeFailure]
  split_ifs <;> simp_all

/-- A frame hidden in a buffer: bit 0 of the payload channel bytes it takes, and nothing else (R122, R123). -/
structure FrameHidden (m px px' : List Byte) : Prop where
  length : px'.length = px.length
  payload : ∀ i b, (frame m)[i]? = some b →
    ∃ old, px[addrOf i]? = some old ∧ px'[addrOf i]? = some (withLSB old b)
  rest : ∀ a, (∀ i < 8 * m.length + 16, a ≠ addrOf i) → px'[a]? = px[a]?

/-- The scan of ENCODE over a memory that holds a buffer with room for the frame. -/
theorem exists_frameHidden {mem : Memory} {m px : List Byte} (hpx : ∀ a < px.length, mem.get a = px[a]?)
    (hroom : ∀ i < 8 * m.length + 16, addrOf i < px.length) :
    ∃ mem' px', insertBits mem 0 (frame m) = some mem' ∧ FrameHidden m px px' ∧
      ∀ a < px'.length, mem'.get a = px'[a]? := by
  have hdefined : (insertBits mem 0 (frame m)).isSome = true := insertBits_isSome.2 fun i hi => by
    rw [frame_length] at hi
    rw [Nat.zero_add, hpx _ (hroom i hi), List.getElem?_eq_getElem (hroom i hi)]
    rfl
  obtain ⟨mem', hscan⟩ := Option.isSome_iff_exists.1 hdefined
  obtain ⟨hbits, hrest, -, -⟩ := insertBits_spec hscan
  have hbytes : (collect mem'.get 0 px.length).isSome = true := collect_isSome.2 fun a ha => by
    refine isSome_get_insertBits ?_ hscan
    rw [Nat.zero_add, hpx a ha, List.getElem?_eq_getElem ha]
    rfl
  obtain ⟨px', hpx'⟩ := Option.isSome_iff_exists.1 hbytes
  obtain ⟨hlen, hget⟩ := collect_eq_some.1 hpx'
  simp only [Nat.zero_add] at hbits hrest hget
  refine ⟨mem', px', hscan, ⟨hlen, fun i b hb => ?_, fun a ha => ?_⟩, fun a ha => hget a (hlen ▸ ha)⟩
  · obtain ⟨hi, -⟩ := List.getElem?_eq_some_iff.1 hb
    rw [frame_length] at hi
    obtain ⟨old, hold, hnew⟩ := hbits i b hb
    exact ⟨old, hpx _ (hroom i hi) ▸ hold, hget _ (hroom i hi) ▸ hnew⟩
  · by_cases hin : a < px.length
    · rw [← hget a hin, ← hpx a hin]
      exact hrest a fun i hi => ha i (frame_length m ▸ hi)
    · rw [List.getElem?_eq_none (by omega), List.getElem?_eq_none (by omega)]

section
variable {ws : List Transaction} {s t : State} {px m : List Byte}

/-- Encode whose command fails: the failure is named, and PIX is as the writes left it. -/
theorem encodeCallBy_of_failure {k : Failure} (n : Nat) (hws : makeTransactions ws s = .next t)
    (hb : t.runState ≠ .busy) (hk : encodeFailure t.cfg t.pixelCount t.messageLength = some k) :
    ∃ u, encodeCallBy ws n s = .next ⟨u, .failed k⟩ ∧ u.pix = t.pix := by
  have hexec : exec .encode (t.polledFor .encode) = .next ((t.polledFor .encode).raise k) := by
    rw [exec_encode_eq]
    exact congrArg (Option.elim · _ _) hk
  exact ⟨_, call_of_raise hws hb hexec (readBackPixels n), rfl⟩

/-- Encode whose command succeeds gives the buffer with the frame hidden in it, and PIX holds what it gives. -/
theorem encodeCallBy_of_accepts (hws : makeTransactions ws s = .next t) (hb : t.runState ≠ .busy)
    (hpx : HoldsPixels t px) (hfull : px.length = 4 * t.pixelCount) (hm : t.message = some m) (hacc : EncodeAccepts t) :
    ∃ u px', encodeCallBy ws t.pixelCount s = .next ⟨u, .pixels px'⟩ ∧ FrameHidden m px px' ∧ u.cfg = t.cfg ∧
      u.runState ≠ .busy ∧ ∀ a < px'.length, u.pix.get a = px'[a]? := by
  have ⟨hn, _, _, _, hcap⟩ := hacc
  obtain ⟨hlen, -⟩ := State.message_eq_some.1 hm
  obtain ⟨mem, px', hscan, hhidden, hmem⟩ := exists_frameHidden (m := m) hpx.bytes fun i hi => by
    rw [hfull]
    exact addrOf_lt (by omega)
  obtain ⟨u, hexec, hcfg, hdone, hpix⟩ : ∃ u, exec .encode (t.polledFor .encode) = .next u ∧ u.cfg = t.cfg ∧
      u.runState = .done ∧ u.pix = mem :=
    ⟨_, (execEncode_of_accepts (s := t.polledFor .encode) hacc).trans
      (placeMessage_eq_next_iff.2 ⟨m, mem, hm, hscan, rfl⟩), rfl, State.finish_runState .., rfl⟩
  have hread := makeTransactions_readPixels (n := t.pixelCount) (s := u.afterPolling t.turns) (bs := px')
    (by simp [hdone]) (by rw [State.afterPolling_cfg, hcfg]; exact hn) (hhidden.length.trans hfull) fun a ha => by
      rw [State.afterPolling_pix, hpix]
      exact hmem a (by rw [hhidden.length, hfull]; exact ha)
  refine ⟨{ u.afterPolling t.turns with replies := px'.reverse.map .byte ++ (u.afterPolling t.turns).replies }, px', ?_,
    hhidden, hcfg, ?_, fun a ha => hpix ▸ hmem a ha⟩
  · rw [encodeCallBy, call_of_done hws hb hexec hdone, readBackPixels, hread, andThen_next, ← hfull,
      ← hhidden.length, State.lastBytes_append]
  · exact fun hbusy => RunState.noConfusion (hdone.symm.trans hbusy)

end

/-- ENCODE's word for a bit written into a byte, and the statements' (R112). -/
theorem withLSB_eq_ite (old : Byte) (b : Bool) :
    withLSB old b = (old &&& 0xFE#8) ||| (if b = true then 1#8 else 0#8) := by
  cases b <;> rfl

/-- Settles O58: the writes leave the buffer and the message, and ENCODE's tests decide how the call ends. -/
theorem encodeCallGivesPixelsOrTheFailure : Obligations.EncodeCallGivesPixelsOrTheFailure := by
  intro s px m n ws hvalid hlen hws
  refine ⟨fun hb hn hl => ?_, fun h => encodeCallBy_refused n hws ?_⟩
  · obtain ⟨t, ht, hcfg, htb, hpx, hm⟩ := makeTransactions_encodeWrites hvalid hb (by omega) hl hws
    obtain ⟨hlenm, -⟩ := State.message_eq_some.1 hm
    obtain rfl : t.pixelCount = n := by
      have := hpx.count
      omega
    have hfailure : encodeFailure t.cfg t.pixelCount t.messageLength =
        if t.pixelCount = 0 ∨ m.length = 0 then
          some (.emptyInput (decide (t.pixelCount = 0)) (decide (m.length = 0)))
        else if capOK t.pixelCount m.length = false then some .capacityExceeded else none := by
      rw [encodeFailure, if_neg (by rw [hcfg]; omega), ← hlenm]
    refine ⟨fun hn1 hl1 hcap => ?_, fun hempty => ?_, fun hn1 hl1 hcap => ?_⟩
    · have hacc : EncodeAccepts t := ⟨hcfg ▸ hn, hcfg ▸ hlenm ▸ hl, by omega, by omega, by omega⟩
      obtain ⟨u, px', hcall, hhidden, -⟩ := encodeCallBy_of_accepts ht htb hpx hlen hm hacc
      refine ⟨u, px', hcall, hhidden.length, fun i b hb => ?_, hhidden.rest⟩
      simp only [← withLSB_eq_ite]
      exact hhidden.payload i b hb
    · obtain ⟨u, hcall, hpix⟩ := encodeCallBy_of_failure t.pixelCount ht htb (hfailure.trans (if_pos hempty))
      exact ⟨u, hcall, hpix ▸ hpx.bytes⟩
    · have hover : capOK t.pixelCount m.length = false := decide_eq_false (by simp only [required, capacity]; omega)
      obtain ⟨u, hcall, hpix⟩ := encodeCallBy_of_failure t.pixelCount ht htb
        (hfailure.trans ((if_neg (by omega)).trans (if_pos hover)))
      exact ⟨u, hcall, hpix ▸ hpx.bytes⟩
  · rcases h with hb | hn | hl
    · exact .inl hb
    · exact .inr (.inl (by omega))
    · exact .inr (.inr hl)

/-! #### Decode (R89, R140, R160) -/

/-- What Decode gives for a buffer with the LSB stream `S` (R89, R142, R143, R145). -/
def decodeResult (strict : Bool) (S : List Bool) : CallResult :=
  match findDelim S with
  | none => .failed .noHiddenMessage
  | some k => if strict = true ∧ k % 8 ≠ 0 then .failed .noHiddenMessage else .message (fromBits (S.take k))

theorem decodeResult_of_none {strict : Bool} {S : List Bool} (h : ∀ j, ¬ DelimAt S j) :
    decodeResult strict S = .failed .noHiddenMessage := by
  cases hk : findDelim S with
  | none => rw [decodeResult, hk]
  | some k => exact absurd (findDelim_eq_some_iff.1 hk).1 (h k)

theorem decodeResult_of_firstDelimAt {strict : Bool} {S : List Bool} {k : Nat} (h : FirstDelimAt S k) :
    decodeResult strict S =
      if strict = true ∧ k % 8 ≠ 0 then .failed .noHiddenMessage else .message (fromBits (S.take k)) := by
  rw [decodeResult, findDelim_eq_some_iff.2 h]

/-- The bytes DECODE delivers, as the host reads them back (R85, R147). -/
theorem readBackMessage_of_delivered {u : State} {r : List Byte} {mem : Memory} (hb : u.runState ≠ .busy)
    (hlen : u.msglen.toNat = r.length) (hmsg : u.msg = mem.setBytes 0 r) (hfits : r.length ≤ u.cfg.msgMax) :
    ∃ v, readBackMessage u = .next ⟨v, .message r⟩ := by
  have hrd : makeTransaction (.rd 3) u = .next (u.reply (.word u.msglen)) :=
    (makeTransaction_of_not_busy hb _).trans (hostAct_rd hb (r := .msglen) rfl)
  have hread := makeTransactions_readMessage (s := u.reply (.word u.msglen)) (bs := r) hb hfits rfl fun j hj => by
    rw [State.reply_msg, hmsg, Memory.get_setBytes, if_pos (by omega), Nat.sub_zero]
  have hword : (u.reply (.word u.msglen)).lastWord = some u.msglen := rfl
  refine ⟨{ u with replies := r.reverse.map .byte ++ .word u.msglen :: u.replies }, ?_⟩
  rw [readBackMessage, hrd, andThen_next]
  simp only [hword, hlen, hread, andThen_next, State.lastBytes_append]
  rfl

/-- Decode of a buffer, when its writes lead to a state that holds it (R89). -/
theorem decodeCallBy_of_stream {ws : List Transaction} {s t : State} {S : List Bool}
    (hws : makeTransactions ws s = .next t) (hb : t.runState ≠ .busy) (hvalid : t.cfg.Valid)
    (hn : t.pixelCount ≤ t.cfg.pixMax) (hS : t.stream = some S) :
    ∃ u, decodeCallBy ws s = .next ⟨u, decodeResult t.cfg.strictK8 S⟩ := by
  have hexec : exec .decode (t.polledFor .decode) = .next (endDecode (t.polledFor .decode) S) :=
    exec_decode_eq_next_iff.2 (.inr ⟨State.decodeInRange_iff.2 hn, S, hS, rfl⟩)
  cases hk : findDelim S with
  | none =>
    simp only [endDecode, hk] at hexec
    rw [decodeResult, hk]
    exact ⟨_, call_of_raise hws hb hexec _⟩
  | some k =>
    simp only [endDecode, hk] at hexec
    rw [decodeResult_of_firstDelimAt (findDelim_eq_some_iff.1 hk)]
    split
    case isTrue hstrict =>
      rw [State.polledFor_cfg, if_pos hstrict] at hexec
      exact ⟨_, call_of_raise hws hb hexec _⟩
    case isFalse hstrict =>
      rw [State.polledFor_cfg, if_neg hstrict] at hexec
      have hroom : k + 16 ≤ 3 * t.pixelCount := (findDelim_eq_some_iff.1 hk).add_sixteen_le hS
      obtain ⟨hlenS, -⟩ := State.stream_eq_some.1 hS
      have hbytes : (fromBits (S.take k)).length = k / 8 := by
        rw [fromBits_length, List.length_take, Nat.min_eq_left (by omega)]
      obtain ⟨v, hv⟩ := readBackMessage_of_delivered
        (u := (deliverMessage (t.polledFor .decode) S k).afterPolling t.turns) (r := fromBits (S.take k))
        (mem := t.msg) (by simp) (by rw [hbytes]; exact hvalid.toNat_ofNat_offset hn (by omega)) rfl
        (by rw [hbytes]; exact hvalid.div_eight_le_msgMax hn hroom)
      exact ⟨v, (call_of_done hws hb hexec (deliverMessage_runState ..) _).trans hv⟩

/-- `S` is bit 0 of the payload channel bytes of the buffer `px`, in their order (R115). -/
abbrev LsbsOf (px : List Byte) (S : List Bool) : Prop :=
  S.length = 3 * (px.length / 4) ∧ ∀ i < S.length, S[i]? = px[addrOf i]?.map fun v => v.getLsbD 0

/-- The stream of a state that holds a buffer of whole pixels is the buffer's (R115). -/
theorem HoldsPixels.stream {t : State} {px : List Byte} {S : List Bool} (h : HoldsPixels t px) (hS : LsbsOf px S) :
    t.stream = some S := by
  obtain ⟨hlen, hbits⟩ := hS
  refine State.stream_eq_some.2 ⟨by rw [h.count, hlen], fun i hi => ?_⟩
  have haddr : addrOf i < 4 * (px.length / 4) := addrOf_lt (by omega)
  rw [extractLSB, h.bytes _ (by omega), hbits i hi]

/-- Decode of a buffer that fits PIX, its writes in any order (R89). -/
theorem decodeCallBy_of_lsbsOf {s : State} {px : List Byte} {S : List Bool} {ws : List Transaction}
    (hvalid : s.cfg.Valid) (hb : s.runState ≠ .busy) (hpx : px.length ≤ 4 * s.cfg.pixMax) (hS : LsbsOf px S)
    (hws : ws.Perm (decodeWrites px)) : ∃ u, decodeCallBy ws s = .next ⟨u, decodeResult s.cfg.strictK8 S⟩ := by
  obtain ⟨t, ht, hcfg, htb, hholds⟩ := makeTransactions_decodeWrites hvalid hb hpx hws
  rw [← hcfg]
  exact decodeCallBy_of_stream ht htb (hcfg ▸ hvalid) (by rw [hcfg, hholds.count]; omega) (hholds.stream hS)

/-- Settles O59: the writes leave the buffer, and its stream decides how the call ends. -/
theorem decodeCallGivesTheMessageOrTheFailure : Obligations.DecodeCallGivesTheMessageOrTheFailure := by
  intro s px n S ws hvalid hlen hlenS hbits hws
  refine ⟨fun hb hn => ?_, fun h => decodeCallBy_refused hws (h.imp_right fun hn => by omega)⟩
  have hS : LsbsOf px S := ⟨by omega, fun i hi => hbits i (by omega)⟩
  obtain ⟨u, hcall⟩ := decodeCallBy_of_lsbsOf hvalid hb (by omega) hS hws
  refine ⟨fun k hk hstrict => ⟨u, ?_⟩, fun k hk hstrict hk8 => ⟨u, ?_⟩, fun hnone => ⟨u, ?_⟩⟩
  · rw [hcall, decodeResult_of_firstDelimAt hk, if_neg hstrict]
  · rw [hcall, decodeResult_of_firstDelimAt hk, if_pos ⟨hstrict, hk8⟩]
  · rw [hcall, decodeResult_of_none hnone]

/-! #### The round trip (R98, R127, R151) -/

/-- A delimiter inside the first part of a sequence is one of that part. -/
theorem delimAt_append_left {S R : List Bool} {j : Nat} (h : j + 16 ≤ S.length) :
    DelimAt (S ++ R) j ↔ DelimAt S j := by
  have hentry (t : Nat) (ht : t < 16) : (S ++ R)[j + t]? = S[j + t]? := List.getElem?_append_left (by omega)
  rw [DelimAt, DelimAt, hentry 15 (by omega)]
  exact and_congr_left fun _ => forall₂_congr fun t ht => by rw [hentry t (by omega)]

/-- The delimiter stands in a stream that begins with a message's frame at `8*L` (R93, R98). -/
theorem delimAt_frame (m : List Byte) (R : List Bool) : DelimAt (frame m ++ R) (8 * m.length) := by
  rw [delimAt_append_left (by simp), DelimAt]
  simp only [frame_getElem?_delim, delim_getElem?]
  exact ⟨fun t ht => if_pos ht, rfl⟩

/-- No delimiter straddles the message bits and the frame's delimiter: an earlier one lies wholly inside the message (R98). -/
theorem delimAt_frame_of_lt {m : List Byte} {R : List Bool} {j : Nat} (hj : j < 8 * m.length) :
    DelimAt (frame m ++ R) j ↔ j + 16 ≤ 8 * m.length ∧ DelimAt (toBits m) j := by
  rw [delimAt_append_left (by rw [frame_length]; omega), frame]
  by_cases hin : j + 16 ≤ 8 * m.length
  · rw [delimAt_append_left (by rwa [toBits_length])]
    exact (and_iff_right hin).symm
  · refine iff_of_false (fun hd => ?_) fun hd => hin hd.1
    have hone : (frame m)[j + 15]? = some true := by
      obtain ⟨d, hd⟩ := Nat.exists_eq_add_of_le (show 8 * m.length ≤ j + 15 by omega)
      rw [hd, frame_getElem?_delim, delim_getElem?, if_pos (by omega)]
    exact Bool.noConfusion (Option.some.inj (hone.symm.trans hd.2))

/-- The serializer's inverse (R96). -/
theorem fromBits_toBits (m : List Byte) : fromBits (toBits m) = m := by
  refine List.ext_getElem? fun j => ?_
  rcases Nat.lt_or_ge j m.length with hj | hj
  · have hbyte : 8 ≤ ((toBits m).drop (8 * j)).length := by
      rw [List.length_drop, toBits_length]
      omega
    rw [fromBits_getElem? _ (by rw [toBits_length]; omega), List.getElem?_eq_getElem hj, Option.some_inj]
    refine BitVec.eq_of_getLsbD_eq fun i hi => ?_
    have hbit := byteOfBits_getLsbD hbyte (t := 7 - i) (by omega)
    rw [List.getElem?_drop, toBits_getElem? m j _ (by omega), List.getElem?_eq_getElem hj, Option.map_some,
      Nat.sub_sub_self (by omega)] at hbit
    exact (Option.some.inj hbit).symm
  · rw [List.getElem?_eq_none (by rw [fromBits_length, toBits_length]; omega), List.getElem?_eq_none hj]

/-- Where a delimiter stands, a first one stands there or before (R142). -/
theorem DelimAt.exists_firstDelimAt {S : List Bool} {j : Nat} (h : DelimAt S j) : ∃ k ≤ j, FirstDelimAt S k := by
  have hsome : ∃ k, DelimAt S k := ⟨j, h⟩
  exact ⟨Nat.find hsome, Nat.find_min' hsome h, Nat.find_spec hsome, fun _ hi => Nat.find_min hsome hi⟩

/-- Decode of a stream that begins with a message's frame gives the message if and only if it holds no delimiter (R151). -/
theorem decodeResult_eq_message_iff {strict : Bool} {m : List Byte} {R : List Bool} :
    decodeResult strict (frame m ++ R) = .message m ↔ ∀ j, ¬ DelimAt (toBits m) j := by
  constructor
  · intro hresult j hj
    have hinside : j + 16 ≤ 8 * m.length := by simpa using hj.add_sixteen_le
    have hfound : DelimAt (frame m ++ R) j := (delimAt_frame_of_lt (by omega)).2 ⟨hinside, hj⟩
    obtain ⟨k, hkj, hk⟩ := hfound.exists_firstDelimAt
    rw [decodeResult_of_firstDelimAt hk] at hresult
    split at hresult
    case isTrue => cases hresult
    case isFalse =>
      have hlen := congrArg List.length (CallResult.message.inj hresult)
      rw [fromBits_length, List.length_take] at hlen
      omega
  · intro hnone
    have hfirst : FirstDelimAt (frame m ++ R) (8 * m.length) :=
      ⟨delimAt_frame m R, fun j hj hd => hnone j ((delimAt_frame_of_lt hj).1 hd).2⟩
    have htake : (frame m ++ R).take (8 * m.length) = toBits m := by
      rw [frame, List.append_assoc, List.take_append_of_le_length (by simp), List.take_of_length_le (by simp)]
    rw [decodeResult_of_firstDelimAt hfirst, if_neg (by omega), htake, fromBits_toBits]

/-- An Encode that gave pixels: the frame fitted and is hidden in them, and PIX holds them. -/
theorem encodeCall_eq_pixels {s t : State} {px m px' : List Byte} {n : Nat} (hvalid : s.cfg.Valid)
    (hlen : px.length = 4 * n) (hcall : encodeCall px m s = .next ⟨t, .pixels px'⟩) :
    FrameHidden m px px' ∧ n ≤ s.cfg.pixMax ∧ 8 * m.length + 16 ≤ 3 * n ∧ t.cfg = s.cfg ∧ t.runState ≠ .busy ∧
      ∀ a < px'.length, t.pix.get a = px'[a]? := by
  rw [encodeCall] at hcall
  by_cases hrefused : s.runState = .busy ∨ 4 * s.cfg.pixMax < px.length ∨ s.cfg.msgMax < m.length
  · obtain ⟨r, hr⟩ := encodeCallBy_refused (px.length / 4) (.refl _) hrefused
    cases hcall.symm.trans hr
  obtain ⟨hb, hpxMax, hmsgMax⟩ : s.runState ≠ .busy ∧ px.length ≤ 4 * s.cfg.pixMax ∧ m.length ≤ s.cfg.msgMax := by
    simpa only [not_or, not_lt] using hrefused
  obtain ⟨u, hu, hcfg, hub, hpx, hm⟩ := makeTransactions_encodeWrites hvalid hb hpxMax hmsgMax (.refl _)
  rw [← hpx.count] at hcall
  have hcount : u.pixelCount = n := hpx.count.trans (by omega)
  cases hfails : encodeFailure u.cfg u.pixelCount u.messageLength with
  | some k =>
    obtain ⟨v, hv, -⟩ := encodeCallBy_of_failure u.pixelCount hu hub hfails
    cases hcall.symm.trans hv
  | none =>
    have hacc := encodeFailure_eq_none_iff.1 hfails
    obtain ⟨v, px'', hv, hhidden, hvcfg, hvb, hpix⟩ :=
      encodeCallBy_of_accepts hu hub hpx (hlen.trans (by rw [hcount])) hm hacc
    cases hcall.symm.trans hv
    obtain ⟨-, -, -, -, hcap⟩ := hacc
    obtain ⟨hlenm, -⟩ := State.message_eq_some.1 hm
    exact ⟨hhidden, by omega, by omega, hvcfg.trans hcfg, hvb, hpix⟩

/-- The LSB stream of the pixels that hide a frame begins with the frame (R127). -/
theorem FrameHidden.exists_lsbs {m px px' : List Byte} {n : Nat} (h : FrameHidden m px px')
    (hlen : px'.length = 4 * n) (hroom : 8 * m.length + 16 ≤ 3 * n) : ∃ R, LsbsOf px' (frame m ++ R) := by
  have hdefined : (collect (fun i => px'[addrOf i]?.map fun v => v.getLsbD 0) 0 (3 * n)).isSome = true :=
    collect_isSome.2 fun i hi => by
      have haddr : addrOf (0 + i) < px'.length := hlen ▸ addrOf_lt (by omega)
      rw [List.getElem?_eq_getElem haddr]
      rfl
  obtain ⟨S, hS⟩ := Option.isSome_iff_exists.1 hdefined
  obtain ⟨hlenS, hbits⟩ := collect_eq_some.1 hS
  simp only [Nat.zero_add] at hbits
  have hhead : S.take (frame m).length = frame m := List.ext_getElem? fun i => by
    rw [List.getElem?_take]
    split
    case isTrue hi =>
      obtain ⟨old, -, hnew⟩ := h.payload i _ (List.getElem?_eq_getElem hi)
      rw [frame_length] at hi
      rw [← hbits i (by omega), hnew, Option.map_some, withLSB_getLsbD, if_pos rfl, List.getElem?_eq_getElem]
    case isFalse hi => exact (List.getElem?_eq_none (not_lt.1 hi)).symm
  have hsplit := List.take_append_drop (frame m).length S
  rw [hhead] at hsplit
  refine ⟨S.drop (frame m).length, ?_⟩
  rw [hsplit]
  exact ⟨by omega, fun i hi => (hbits i (by omega)).symm⟩

/-- Settles O60: either Decode meets the frame at the head of its stream, for which the straddle lemma decides. -/
theorem decodeCallUndoesEncodeCall : Obligations.DecodeCallUndoesEncodeCall := by
  intro s t px m px' n hvalid hlen hcall
  obtain ⟨hhidden, hn, hroom, hcfg, htb, hpix⟩ := encodeCall_eq_pixels hvalid hlen hcall
  have hlen' : px'.length = 4 * n := hhidden.length.trans hlen
  obtain ⟨R, hS⟩ := hhidden.exists_lsbs hlen' hroom
  have hmessage {o : Host.Outcome Returned Fault Refusal}
      (ho : ∃ u, o = .next ⟨u, decodeResult s.cfg.strictK8 (frame m ++ R)⟩) :
      (∃ v, o = .next ⟨v, .message m⟩) ↔ ∀ j, ¬ DelimAt (toBits m) j := by
    obtain ⟨u, rfl⟩ := ho
    simpa using decodeResult_eq_message_iff
  refine ⟨fun u hucfg hub => hmessage ?_, hmessage ?_⟩
  · rw [← hucfg]
    exact decodeCallBy_of_lsbsOf (hucfg ▸ hvalid) hub (by rw [hucfg]; omega) hS (.refl _)
  · have hwrite : makeTransactions [.wr 2 (BitVec.ofNat 32 n)] t = .next { t with pixcnt := BitVec.ofNat 32 n } := by
      rw [makeTransactions_cons, makeTransaction_of_not_busy htb, hostAct_wrPixcnt htb, andThen_next,
        makeTransactions_nil]
    have hfits : (BitVec.ofNat 32 n).toNat = n := hvalid.toNat_ofNat_offset hn (by omega)
    have hholds : HoldsPixels { t with pixcnt := BitVec.ofNat 32 n } px' := ⟨hfits.trans (by omega), hpix⟩
    rw [← hcfg]
    exact decodeCallBy_of_stream (t := { t with pixcnt := BitVec.ofNat 32 n }) hwrite htb (hcfg ▸ hvalid)
      (hfits.trans_le (hcfg ▸ hn)) (hholds.stream hS)

end Sys2Proof.Machine

/-! ### The serializer and the round trip through the pixels (40_serializer.md, 44_decode.md) -/

namespace Sys2Proof.Machine

/-! #### The serializer and its inverse (R91, R95, R96, R97) -/

/-- The bits of the bytes made of a sequence are the sequence without its trailing partial group (R96). -/
theorem toBits_fromBits (s : List Bool) : toBits (fromBits s) = s.take (8 * (s.length / 8)) := by
  refine List.ext_getElem? fun i => ?_
  rw [List.getElem?_take]
  split
  case isTrue hi =>
    have hbit : i % 8 < 8 := Nat.mod_lt i (by omega)
    have hgroup : 8 ≤ (s.drop (8 * (i / 8))).length := by
      rw [List.length_drop]
      omega
    calc (toBits (fromBits s))[i]?
        = (toBits (fromBits s))[8 * (i / 8) + i % 8]? := by rw [Nat.div_add_mod]
      _ = some ((byteOfBits (s.drop (8 * (i / 8)))).getLsbD (7 - i % 8)) := by
          rw [toBits_getElem? _ _ _ hbit, fromBits_getElem? s (by omega), Option.map_some]
      _ = s[i]? := by rw [← byteOfBits_getLsbD hgroup hbit, List.getElem?_drop, Nat.div_add_mod]
  case isFalse hi => exact List.getElem?_eq_none (by simpa using hi)

/-- Settles O18: what `ToBits` gives for the bytes made of `s` is `s` cut to whole bytes, which is all of it when the length
is a multiple of 8. -/
theorem serializerIsInvertible : Obligations.SerializerIsInvertible := by
  refine ⟨fromBits_toBits, fun s hs => ?_, toBits_fromBits⟩
  rw [toBits_fromBits, List.take_of_length_le (by omega)]

theorem toBits_injective : Function.Injective toBits := Function.LeftInverse.injective fromBits_toBits

theorem toBits_take (m : List Byte) (l : Nat) : toBits (m.take l) = (toBits m).take (8 * l) := by
  induction m generalizing l with
  | nil => simp
  | cons b m ih =>
    cases l with
    | zero => rfl
    | succ l =>
      rw [List.take_succ_cons, toBits_cons, toBits_cons, ih, Nat.mul_succ, Nat.add_comm, ← byteBits_length b,
        List.take_length_add_append]

/-- Cutting the bits of a message short keeps its whole bytes before the cut (R97). -/
theorem fromBits_take_toBits {m : List Byte} {k : Nat} (hk : k ≤ 8 * m.length) :
    fromBits ((toBits m).take k) = m.take (k / 8) := by
  refine toBits_injective ?_
  rw [toBits_fromBits, toBits_take, List.length_take, toBits_length, Nat.min_eq_left hk, List.take_take,
    Nat.min_eq_left (Nat.mul_div_le k 8)]

/-! #### Where delimiters stand in a frame (R92, R93, R98) -/

/-- Settles O19: the straddle lemma of a stream that is the frame and nothing more. -/
theorem delimiterDoesNotStraddle : Obligations.DelimiterDoesNotStraddle := by
  intro m
  rw [← List.append_nil (frame m)]
  exact ⟨delimAt_frame m [], fun j hj => delimAt_frame_of_lt hj⟩

/-- A byte below 0x80 begins with a 0 bit (R90, R91). -/
theorem toBits_getElem?_of_lt_0x80 {m : List Byte} (hm : ∀ b ∈ m, b.toNat < 0x80) (j : Nat) :
    (toBits m)[8 * j]? ≠ some true := by
  rw [← Nat.add_zero (8 * j), toBits_getElem? m j 0 (by omega)]
  intro htop
  obtain ⟨b, hb, htop⟩ := Option.map_eq_some_iff.1 htop
  have hzero : b.getLsbD 7 = false := Nat.testBit_lt_two_pow (hm b (List.mem_of_getElem? hb))
  exact Bool.noConfusion (hzero.symm.trans htop)

/-- Settles O20: of the fifteen 1 bits of a delimiter at least one would be the first bit of a byte. -/
theorem sevenBitMessagesHoldNoDelimiter : Obligations.SevenBitMessagesHoldNoDelimiter := by
  rintro m hm j ⟨hones, -⟩
  obtain ⟨q, t, ht, hq⟩ : ∃ q t, t < 15 ∧ j + t = 8 * q := ⟨(j + 7) / 8, 8 * ((j + 7) / 8) - j, by omega, by omega⟩
  exact toBits_getElem?_of_lt_0x80 hm q (hq ▸ hones t ht)

/-- The first delimiter of a message is the first of every stream that begins with its frame (R98). -/
theorem FirstDelimAt.frame_append {m : List Byte} {j : Nat} (h : FirstDelimAt (toBits m) j) (R : List Bool) :
    FirstDelimAt (frame m ++ R) j := by
  obtain ⟨hj, hfirst⟩ := h
  have hinside : j + 16 ≤ 8 * m.length := by simpa using hj.add_sixteen_le
  exact ⟨(delimAt_frame_of_lt (by omega)).2 ⟨hinside, hj⟩,
    fun i hi hd => hfirst i hi ((delimAt_frame_of_lt (by omega)).1 hd).2⟩

/-- The frame's own delimiter is the first if and only if the message holds none (R98, R151). -/
theorem firstDelimAt_frame_append_iff {m : List Byte} {R : List Bool} :
    FirstDelimAt (frame m ++ R) (8 * m.length) ↔ ∀ j, ¬ DelimAt (toBits m) j := by
  refine ⟨fun hfirst j hj => ?_, fun hnone => ⟨delimAt_frame m R, fun j hj hd => ?_⟩⟩
  · have hinside : j + 16 ≤ 8 * m.length := by simpa using hj.add_sixteen_le
    exact hfirst.2 j (by omega) ((delimAt_frame_of_lt (by omega)).2 ⟨hinside, hj⟩)
  · exact hnone j ((delimAt_frame_of_lt hj).1 hd).2

/-! #### The stream that a successful ENCODE leaves (R122, R127) -/

/-- The scan's bits are read back where it put them (R112, R113). -/
theorem extractLSB_insertBits {mem mem' : Memory} {i : Nat} {bs : List Bool} (h : insertBits mem i bs = some mem')
    {t : Nat} (ht : t < bs.length) : extractLSB mem' (addrOf (i + t)) = some bs[t] := by
  obtain ⟨hbits, -⟩ := insertBits_spec h
  obtain ⟨old, -, hnew⟩ := hbits t bs[t] (List.getElem?_eq_getElem ht)
  rw [extractLSB, hnew, Option.map_some, withLSB_getLsbD, if_pos rfl]

/-- The stream of a memory with defined payload begins with the bits that a scan from bit 0 has put there (R115). -/
theorem exists_lsbStream_of_insertBits {mem mem' : Memory} {n : Nat} {bs : List Bool}
    (hscan : insertBits mem 0 bs = some mem') (hroom : bs.length ≤ 3 * n) (hdef : PayloadDefined mem (3 * n)) :
    ∃ R, lsbStream mem' n = some (bs ++ R) := by
  obtain ⟨S, hS⟩ := Option.isSome_iff_exists.1 (lsbStream_isSome.2 fun i hi => isSome_get_insertBits (hdef i hi) hscan)
  obtain ⟨-, hbits⟩ := lsbStream_eq_some.1 hS
  obtain ⟨R, rfl⟩ : bs <+: S := List.prefix_iff_getElem?.2 fun i hi => by
    rw [← hbits i (by omega), ← extractLSB_insertBits hscan hi, Nat.zero_add]
  exact ⟨R, hS⟩

/-- A successful ENCODE has passed its tests and scanned the frame of its message into PIX (R120). -/
theorem exec_encode_done_scan {s t : State} {m : List Byte} (hm : s.message = some m) (h : exec .encode s = .next t)
    (hdone : t.runState = .done) : EncodeAccepts s ∧ insertBits s.pix 0 (frame m) = some t.pix := by
  rcases exec_encode_next h with ⟨f, rfl⟩ | ⟨hacc, m', pix, hm', hscan, rfl⟩
  · simp at hdone
  · obtain rfl : m' = m := Option.some.inj (hm'.symm.trans hm)
    exact ⟨hacc, hscan⟩

/-- In any state that still holds the pixels of a successful ENCODE, PIXCNT is in range and the stream begins with the frame
(R121, R127). -/
theorem exists_stream_of_encode_done {s t u : State} {m : List Byte} (hm : s.message = some m)
    (h : exec .encode s = .next t) (hdone : t.runState = .done) (hcfg : u.cfg = s.cfg) (hpixcnt : u.pixcnt = s.pixcnt)
    (hpix : u.pix = t.pix) (hdef : PayloadDefined s.pix (3 * s.pixelCount)) :
    u.pixelCount ≤ u.cfg.pixMax ∧ ∃ R, u.stream = some (frame m ++ R) := by
  obtain ⟨⟨hn, -, -, -, hcap⟩, hscan⟩ := exec_encode_done_scan hm h hdone
  rw [← State.frame_length_of_message hm] at hcap
  have hcount : u.pixelCount = s.pixelCount := congrArg BitVec.toNat hpixcnt
  rw [State.stream, hcount, hcfg, hpix]
  exact ⟨hn, exists_lsbStream_of_insertBits hscan hcap hdef⟩

/-! #### DECODE of a stream that begins with a frame (R140, R145 to R147) -/

theorem endDecode_of_firstDelimAt {S : List Bool} {k : Nat} (h : FirstDelimAt S k) (s : State) : endDecode s S =
    if s.cfg.strictK8 = true ∧ k % 8 ≠ 0 then s.raise .noHiddenMessage else deliverMessage s S k := by
  rw [endDecode, findDelim_eq_some_iff.2 h]

/-- Of a stream that begins with a frame, a delimiter no later than the frame's own delivers message bytes only (R97). -/
theorem deliverMessage_frame_append_msg_get {u : State} {m : List Byte} {R : List Bool} {k j : Nat}
    (hk : k ≤ 8 * m.length) (hj : j < k / 8) : (deliverMessage u (frame m ++ R) k).msg.get j = m[j]? := by
  have hbytes : fromBits ((frame m ++ R).take k) = m.take (k / 8) := by
    rw [frame, List.append_assoc, List.take_append_of_le_length (by rwa [toBits_length]), fromBits_take_toBits hk]
  rw [deliverMessage_msg, hbytes, Memory.get_setBytes, if_pos (by rw [List.length_take]; omega), Nat.sub_zero,
    List.getElem?_take_of_lt hj]

section
variable {u : State} {m : List Byte} {R : List Bool} {k : Nat}

/-- DECODE in range, its stream collected, ends as the stream decides (R140, R141). -/
theorem exec_decode_of_stream {S : List Bool} (hn : u.pixelCount ≤ u.cfg.pixMax) (hS : u.stream = some S) :
    exec .decode u = .next (endDecode u S) :=
  exec_decode_eq_next_iff.2 (.inr ⟨State.decodeInRange_iff.2 hn, S, hS, rfl⟩)

/-- DECODE's success on a stream that begins with a frame, the first delimiter at `k` no later than the frame's own. -/
theorem exec_decode_frame_append (hvalid : u.cfg.Valid) (hn : u.pixelCount ≤ u.cfg.pixMax)
    (hS : u.stream = some (frame m ++ R)) (hk : FirstDelimAt (frame m ++ R) k) (hle : k ≤ 8 * m.length)
    (hstrict : ¬ (u.cfg.strictK8 = true ∧ k % 8 ≠ 0)) :
    ∃ v, exec .decode u = .next v ∧ v.runState = .done ∧ v.dpos.toNat = k ∧ v.msglen.toNat = k / 8 ∧
      ∀ j < k / 8, v.msg.get j = m[j]? := by
  have hroom := hk.add_sixteen_le hS
  refine ⟨deliverMessage u (frame m ++ R) k, ?_, deliverMessage_runState .., hvalid.toNat_ofNat_offset hn (by omega),
    hvalid.toNat_ofNat_offset hn (by omega), fun j hj => deliverMessage_frame_append_msg_get hle hj⟩
  rw [exec_decode_of_stream hn hS, endDecode_of_firstDelimAt hk, if_neg hstrict]

end

/-! #### The round trip (R151, R152) -/

/-- Settles O41: DECODE stops at the first delimiter, which is the frame's own exactly when the message holds none. -/
theorem decodeRecoversWhatEncodeHid : Obligations.DecodeRecoversWhatEncodeHid := by
  intro s t u m hvalid hlen hmsg h hdone hcfg hpixcnt hpix hdef
  obtain ⟨hn, R, hS⟩ :=
    exists_stream_of_encode_done (State.message_eq_some.2 ⟨hlen, hmsg⟩) h hdone hcfg hpixcnt hpix hdef
  rw [← hcfg] at hvalid
  rw [← firstDelimAt_frame_append_iff (R := R)]
  constructor
  · rintro ⟨v, hv, hvdone, hdpos, -⟩
    obtain ⟨-, S, k, hS', hk, rfl⟩ := exec_decode_done hv hvdone
    obtain rfl : S = frame m ++ R := Option.some.inj (hS'.symm.trans hS)
    have hroom := hk.add_sixteen_le hS
    rw [deliverMessage_dpos, hvalid.toNat_ofNat_offset hn (by omega)] at hdpos
    exact hdpos ▸ hk
  · intro hk
    simpa using exec_decode_frame_append hvalid hn hS hk (Nat.le_refl _) (by omega)

/-- Settles O42: the message's first delimiter is the stream's first, and DECODE stops there. -/
theorem earlyDelimiterShortensTheMessage : Obligations.EarlyDelimiterShortensTheMessage := by
  intro s t u m j0 hvalid hlen hmsg h hdone hcfg hpixcnt hpix hdef hj0
  obtain ⟨hn, R, hS⟩ :=
    exists_stream_of_encode_done (State.message_eq_some.2 ⟨hlen, hmsg⟩) h hdone hcfg hpixcnt hpix hdef
  rw [← hcfg] at hvalid ⊢
  have hk : FirstDelimAt (frame m ++ R) j0 := hj0.frame_append R
  have hinside : j0 + 16 ≤ 8 * m.length := by simpa using hj0.1.add_sixteen_le
  refine ⟨fun hstrict hk8 => ?_, exec_decode_frame_append hvalid hn hS hk (by omega)⟩
  rw [exec_decode_of_stream hn hS, endDecode_of_firstDelimAt hk, if_pos ⟨hstrict, hk8⟩, State.raise,
    statusOfFailure_noHiddenMessage]

end Sys2Proof.Machine

/-! ### The capacity validator (41_capacity_validator.md) -/

namespace Sys2Proof.Machine

section
variable {n l : Nat}

/-- CapOK in numbers (R100 to R102). -/
theorem capOK_iff : capOK n l = true ↔ 8 * l + 16 ≤ 3 * n :=
  decide_eq_true_iff

theorem capOK_eq_false_iff : capOK n l = false ↔ 3 * n < 8 * l + 16 := by
  rw [← Bool.not_eq_true, capOK_iff, not_le]

/-- `Nmin(L)` is the quotient rounded up, so it bounds from below exactly the pixel counts that fit; an empty message too. -/
theorem capOK_iff_nMin_le : capOK n l = true ↔ nMin l ≤ n := by
  rw [capOK_iff, nMin]
  omega

/-- `Lmax(N)` is the quotient rounded down; its subtraction is exact only when the delimiter alone fits. -/
theorem capOK_iff_le_lMax (hdelim : 16 ≤ 3 * n) : capOK n l = true ↔ l ≤ lMax n := by
  rw [capOK_iff, lMax, Nat.le_div_iff_mul_le (by decide), Nat.mul_comm l, Nat.le_sub_iff_add_le hdelim]

/-- One byte and the delimiter take 24 bits, the capacity of 8 pixels. -/
theorem capOK_eq_false_of_lt_eight (hn : n < 8) (hl : 1 ≤ l) : capOK n l = false := by
  rw [capOK_eq_false_iff]
  omega

/-- The frame can fill whole pixels only when `L mod 3 = 1`, since `8*L + 16` leaves the rest of `2*L + 1` by 3. -/
theorem required_eq_capacity_iff : required l = capacity n ↔ l % 3 = 1 ∧ n = (8 * l + 16) / 3 := by
  have hrest : (8 * l + 16) % 3 = 0 ↔ l % 3 = 1 := by omega
  rw [← hrest, required, capacity]
  omega

/-- The frame can be one bit over whole pixels only when `L mod 3 = 0`, since `8*L + 15` leaves the rest of `2*L` by 3. -/
theorem required_eq_capacity_add_one_iff : required l = capacity n + 1 ↔ l % 3 = 0 ∧ n = (8 * l + 15) / 3 := by
  have hrest : (8 * l + 15) % 3 = 0 ↔ l % 3 = 0 := by omega
  rw [← hrest, required, capacity]
  omega

end

/-- Settles O22: CapOK is one linear inequality, whose bounds are its two roundings and whose ties are remainders by 3. -/
theorem capacityBounds : Obligations.CapacityBounds := fun _ _ =>
  ⟨fun _ => capOK_iff_nMin_le, capOK_iff_le_lMax, capOK_eq_false_of_lt_eight, required_eq_capacity_iff,
    required_eq_capacity_add_one_iff⟩

end Sys2Proof.Machine

/-! ### The channel multiplexer and the stream that ENCODE leaves (42_channel_mux.md) -/

namespace Sys2Proof.Machine

/-! #### Addresses of payload bits and of alpha bytes (R110, R111, R114) -/

theorem addrOf_strictMono : StrictMono addrOf := by
  intro i j hij
  rw [addrOf_eq, addrOf_eq]
  omega

theorem indexOf_of_alpha {a : Nat} (ha : a % 4 = 3) : indexOf a = none := if_pos ha

theorem indexOf_of_ne_alpha {a : Nat} (ha : a % 4 ≠ 3) : indexOf a = some (3 * (a / 4) + a % 4) := if_neg ha

/-- The index of a red, green or blue byte leads back to its address (R111). -/
theorem addrOf_index {a : Nat} (ha : a % 4 ≠ 3) : addrOf (3 * (a / 4) + a % 4) = a := by
  rw [addrOf_eq]
  omega

/-- Settles O23: a pixel's three payload bits take the first three of its four bytes, so alpha alone is left out. -/
theorem addressOfPayloadBits : Obligations.AddressOfPayloadBits :=
  ⟨fun _ _ hij => addrOf_strictMono hij,
    fun _ ha => ⟨indexOf_of_ne_alpha ha, addrOf_index ha⟩,
    fun _ ha => ⟨indexOf_of_alpha ha, fun i hi => addrOf_mod i (hi ▸ ha)⟩⟩

/-- Settles O48: ENCODE's scan goes to payload addresses only, and DECODE does not write PIX. -/
theorem alphaBytesNeverChange : Obligations.AlphaBytesNeverChange := by
  intro i s t p h
  cases i with
  | encode =>
    obtain ⟨-, -, -, -, -, -, -, hrest⟩ := encodeLeavesTheRestAlone s t h
    exact hrest (4 * p + 3) fun j _ hj => addrOf_mod j (by omega)
  | decode => rw [exec_decode_pix h]

/-! #### The LSB cell (R112, R113) -/

theorem insertLSB_of_get {m : Memory} {a : Nat} {old : Byte} (h : m.get a = some old) (b : Bool) :
    insertLSB m a b = some (m.set a (withLSB old b)) := insertLSB_eq_some.2 ⟨old, h, rfl⟩

theorem insertLSB_of_get_none {m : Memory} {a : Nat} (h : m.get a = none) (b : Bool) : insertLSB m a b = none := by
  rw [insertLSB, h, Option.map_none]

/-- `ExtractLSB` sees the byte at its address only. -/
theorem extractLSB_congr {m m' : Memory} {a : Nat} (h : m'.get a = m.get a) : extractLSB m' a = extractLSB m a := by
  rw [extractLSB, extractLSB, h]

theorem extractLSB_of_get {m : Memory} {a : Nat} {v : Byte} (h : m.get a = some v) :
    extractLSB m a = some (v.getLsbD 0) := by
  rw [extractLSB, h, Option.map_some]

theorem extractLSB_of_get_none {m : Memory} {a : Nat} (h : m.get a = none) : extractLSB m a = none := by
  rw [extractLSB, h, Option.map_none]

theorem withLSB_toNat_div_two (old : Byte) (b : Bool) : (withLSB old b).toNat / 2 = old.toNat / 2 := by
  have hshift := congrArg BitVec.toNat (withLSB_shiftRight_one old b)
  rwa [BitVec.toNat_ushiftRight, BitVec.toNat_ushiftRight, Nat.shiftRight_one, Nat.shiftRight_one] at hshift

/-- Settles O24: the byte written is `withLSB` of the old one, which has the old upper bits, and so the old half. -/
theorem insertLsbChangesOnlyBitZero : Obligations.InsertLsbChangesOnlyBitZero := by
  refine fun m a b => ⟨fun old hold => ?_, fun v hv => extractLSB_of_get hv,
    fun hnone => ⟨insertLSB_of_get_none hnone b, extractLSB_of_get_none hnone⟩⟩
  have hhalf := withLSB_toNat_div_two old b
  refine ⟨m.set a (withLSB old b), withLSB old b, insertLSB_of_get hold b, Memory.get_set_self m a _, ?_, ?_,
    by omega, by omega, fun x hx => Memory.get_set_ne m _ hx⟩
  · rw [withLSB_getLsbD, if_pos rfl]
  · intro j hj
    rw [withLSB_getLsbD, if_neg (by omega)]

/-! #### The stream after ENCODE, and ENCODE again (R117, R127, R129) -/

/-- Settles O29: the scan's bits are read back from its addresses, and payload bits behind them have other addresses. -/
theorem encodedStreamBeginsWithTheFrame : Obligations.EncodedStreamBeginsWithTheFrame := by
  intro s t m h hdone hlen hmsg
  have hm : s.message = some m := State.message_eq_some.2 ⟨hlen, hmsg⟩
  obtain ⟨-, hscan⟩ := exec_encode_done_scan hm h hdone
  have hframe (i : Nat) (hi : i < 8 * s.msglen.toNat + 16) : extractLSB t.pix (addrOf i) = (frame m)[i]? := by
    have hi' : i < (frame m).length := State.frame_length_of_message hm ▸ hi
    rw [List.getElem?_eq_getElem hi', ← extractLSB_insertBits hscan hi', Nat.zero_add]
  refine ⟨hframe, fun i hi => extractLSB_congr (get_insertBits_frame_of_ne hm hscan fun j hj heq => ?_),
    fun j hj => ?_⟩
  · exact absurd (addrOf_inj heq) (Nat.ne_of_gt (hj.trans_le hi))
  · rw [hframe _ (by omega), ← hlen, frame_getElem?_delim]

/-- Scanning the same bits into a canonical memory again changes nothing (R117). -/
theorem insertBits_insertBits {m m' : Memory} {i : Nat} {bs : List Bool} (hwf : m.wf)
    (h : insertBits m i bs = some m') : insertBits m' i bs = some m' := by
  obtain ⟨hbits, -, hkeeps, -⟩ := insertBits_spec h
  have hdefined : (insertBits m' i bs).isSome = true := insertBits_isSome.2 fun t ht =>
    isSome_get_insertBits (insertBits_isSome.1 (Option.isSome_of_eq_some h) t ht) h
  obtain ⟨m'', hagain⟩ := Option.isSome_iff_exists.1 hdefined
  obtain ⟨hbits', hrest', hkeeps', -⟩ := insertBits_spec hagain
  obtain rfl : m'' = m' := Memory.ext_get (hkeeps' (hkeeps hwf)) (hkeeps hwf) fun a => by
    by_cases hscanned : ∃ t < bs.length, a = addrOf (i + t)
    · obtain ⟨t, ht, rfl⟩ := hscanned
      obtain ⟨old, -, hfirst⟩ := hbits t bs[t] (List.getElem?_eq_getElem ht)
      obtain ⟨old', hold', hsecond⟩ := hbits' t bs[t] (List.getElem?_eq_getElem ht)
      obtain rfl : withLSB old bs[t] = old' := Option.some.inj (hfirst.symm.trans hold')
      rw [hsecond, hfirst, withLSB_withLSB]
    · exact hrest' a fun t ht heq => hscanned ⟨t, ht, heq⟩
  exact hagain

/-- ENCODE that passes its tests and whose scan succeeds leaves the scanned memory and ends at `8*L` (R120, R126). -/
theorem exec_encode_of_scan {s : State} {m : List Byte} {pix : Memory} (hacc : EncodeAccepts s)
    (hm : s.message = some m) (hscan : insertBits s.pix 0 (frame m) = some pix) :
    exec .encode s = .next (({ s with pix := pix } : State).finish (8 * s.messageLength)) :=
  (execEncode_of_accepts hacc).trans (placeMessage_eq_next_iff.2 ⟨m, pix, hm, hscan, rfl⟩)

/-- Settles O30: the tests and the message are those of the first ENCODE, and its scan finds its bits in place. -/
theorem encodeTwiceIsEncodeOnce : Obligations.EncodeTwiceIsEncodeOnce := by
  intro s t hwf h hdone
  rcases exec_encode_next h with ⟨f, rfl⟩ | ⟨hacc, m, pix, hm, hscan, rfl⟩
  · simp at hdone
  · exact exec_encode_of_scan hacc hm (insertBits_insertBits hwf hscan)

end Sys2Proof.Machine

/-! ### ENCODE that completes (43_encode.md) -/

namespace Sys2Proof.Machine

/-- Over defined payload bytes the scan of ENCODE succeeds (R122, R202). -/
theorem exists_insertBits_frame {mem : Memory} {m : List Byte} (h : PayloadDefined mem (8 * m.length + 16)) :
    ∃ pix, insertBits mem 0 (frame m) = some pix := by
  refine Option.isSome_iff_exists.1 (insertBits_isSome.2 fun i hi => ?_)
  rw [Nat.zero_add]
  exact h i (frame_length m ▸ hi)

/-- Settles O25: the scan succeeds on defined bytes, places `withLSB` of each old byte, and touches no other address. -/
theorem encodePlacesTheFrame : Obligations.EncodePlacesTheFrame := by
  intro s m hacc hlen hmsg hdefined
  have hm : s.message = some m := State.message_eq_some.2 ⟨hlen, hmsg⟩
  obtain ⟨pix, hscan⟩ := exists_insertBits_frame (hlen ▸ hdefined)
  obtain ⟨hbits, -⟩ := insertBits_spec hscan
  refine ⟨pix, exec_encode_of_scan hacc hm hscan, fun i b hb => ?_, fun a ha => get_insertBits_frame_of_ne hm hscan ha⟩
  rw [← Nat.zero_add i]
  simp only [← withLSB_eq_ite]
  exact hbits i b hb

end Sys2Proof.Machine

/-! ### DECODE and the delimiter search (44_decode.md) -/

namespace Sys2Proof.Machine

/-! #### The delimiter search that finds none (R142) -/

/-- `FindDelim` has no result exactly when the delimiter stands nowhere: where one stands, there is a first (R142). -/
theorem findDelim_eq_none_iff {S : List Bool} : findDelim S = none ↔ ∀ j, ¬ DelimAt S j := by
  simp only [Option.eq_none_iff_forall_ne_some, Ne, findDelim_eq_some_iff]
  constructor
  · intro hnone j hj
    obtain ⟨k, -, hk⟩ := hj.exists_firstDelimAt
    exact hnone k hk
  · exact fun hnone k hk => hnone k hk.1

/-- Settles O21: the search's result is the first delimiter's offset, and it has none when no delimiter stands anywhere. -/
theorem findDelimIsTheFirstMatch : Obligations.FindDelimIsTheFirstMatch :=
  fun _ => ⟨fun _ => findDelim_eq_some_iff, findDelim_eq_none_iff⟩

/-! #### The whole bytes before an offset (R95, R146) -/

section
variable {S : List Bool} {j k : Nat}

theorem fromBits_take_length (hk : k ≤ S.length) : (fromBits (S.take k)).length = k / 8 := by
  rw [fromBits_length, List.length_take, Nat.min_eq_left hk]

/-- The bits past the last whole byte take no part (R95). -/
theorem fromBits_take_whole_bytes (hk : k ≤ S.length) : fromBits (S.take (8 * (k / 8))) = fromBits (S.take k) := by
  have hwhole : 8 * (k / 8) ≤ k := Nat.mul_div_le k 8
  refine toBits_injective ?_
  rw [toBits_fromBits, toBits_fromBits, List.length_take, List.length_take, Nat.min_eq_left hk,
    Nat.min_eq_left (hwhole.trans hk), Nat.mul_div_cancel_left _ (by decide), List.take_take, List.take_take,
    Nat.min_self, Nat.min_eq_left hwhole]

/-- Byte `j` before the offset is made of stream bits `8*j` to `8*j + 7`, the first as its bit 7 (R95). -/
theorem exists_fromBits_take_getElem? (hk : k ≤ S.length) (hj : j < k / 8) :
    ∃ b, (fromBits (S.take k))[j]? = some b ∧ ∀ t < 8, S[8 * j + t]? = some (b.getLsbD (7 - t)) := by
  have hlen : (S.take k).length = k := by rw [List.length_take, Nat.min_eq_left hk]
  have hgroup : 8 ≤ ((S.take k).drop (8 * j)).length := by
    rw [List.length_drop, hlen]
    omega
  refine ⟨byteOfBits ((S.take k).drop (8 * j)), fromBits_getElem? _ (by rwa [hlen]), fun t ht => ?_⟩
  rw [← byteOfBits_getLsbD hgroup ht, List.getElem?_drop, List.getElem?_take_of_lt (by omega)]

/-- A delivery leaves the whole bytes before the offset at the head of MSG (R146, R147). -/
theorem deliverMessage_msg_get_of_lt (s : State) (hk : k ≤ S.length) (hj : j < k / 8) :
    (deliverMessage s S k).msg.get j = (fromBits (S.take k))[j]? := by
  rw [deliverMessage_msg, Memory.get_setBytes, if_pos (by rw [fromBits_take_length hk]; omega), Nat.sub_zero]

/-- A delivery writes no MSG byte at or beyond `k div 8` (R147). -/
theorem deliverMessage_msg_get_of_le (s : State) (hk : k ≤ S.length) (hj : k / 8 ≤ j) :
    (deliverMessage s S k).msg.get j = s.msg.get j := by
  rw [deliverMessage_msg, Memory.get_setBytes, if_neg (by rw [fromBits_take_length hk]; omega)]

end

theorem FirstDelimAt.le_length {S : List Bool} {k : Nat} (hk : FirstDelimAt S k) : k ≤ S.length :=
  (Nat.le_add_right k 16).trans hk.1.add_sixteen_le

/-! #### How DECODE ends, by its stream (R143 to R147) -/

theorem endDecode_of_no_delimAt {S : List Bool} (h : ∀ j, ¬ DelimAt S j) (s : State) :
    endDecode s S = s.raise .noHiddenMessage := by
  rw [endDecode, findDelim_eq_none_iff.2 h]

theorem State.raise_noHiddenMessage (s : State) :
    s.raise .noHiddenMessage = { s with dpos := 0#32, status := 0x0000000F#32 } := by
  rw [State.raise, statusOfFailure_noHiddenMessage]

/-- The parameters and the stream alone decide between DECODE's two ends: NoHiddenMessage, or a delivery (R142 to R145). -/
theorem endDecode_cases (c : Config) (S : List Bool) :
    (∀ s, s.cfg = c → endDecode s S = s.raise .noHiddenMessage) ∨
    ∃ k, FirstDelimAt S k ∧ ∀ s, s.cfg = c → endDecode s S = deliverMessage s S k := by
  cases hsearch : findDelim S with
  | none => exact .inl fun s _ => endDecode_of_no_delimAt (findDelim_eq_none_iff.1 hsearch) s
  | some k =>
    have hk : FirstDelimAt S k := findDelim_eq_some_iff.1 hsearch
    by_cases hstops : c.strictK8 = true ∧ k % 8 ≠ 0
    · exact .inl fun s hcfg => by rw [endDecode_of_firstDelimAt hk, hcfg, if_pos hstops]
    · exact .inr ⟨k, hk, fun s hcfg => by rw [endDecode_of_firstDelimAt hk, hcfg, if_neg hstops]⟩

/-- DECODE in range with `S` for its LSB stream ends as `S` decides (R140, R141). -/
theorem exec_decode_of_streamIs {s : State} {S : List Bool} (hn : s.pixelCount ≤ s.cfg.pixMax)
    (hlen : S.length = 3 * s.pixelCount) (hS : StreamIs s.pix S) : exec .decode s = .next (endDecode s S) :=
  exec_decode_of_stream hn (State.stream_eq_some.2 ⟨hlen, hS⟩)

/-- Settles O32: STRICT_K8 does not stop this delimiter, so DECODE delivers what stands before it. -/
theorem decodeDeliversTheMessage : Obligations.DecodeDeliversTheMessage := by
  intro s S k hn hlen hS hk hstrict
  refine ⟨(deliverMessage s S k).msg, ?_, fun j hj => ?_, fun j hj => deliverMessage_msg_get_of_le s hk.le_length hj⟩
  · have hpasses : ¬ (s.cfg.strictK8 = true ∧ k % 8 ≠ 0) := fun hstops => hstops.2 (hstrict hstops.1)
    rw [exec_decode_of_streamIs hn hlen hS, endDecode_of_firstDelimAt hk, if_neg hpasses]
    rfl
  · rw [deliverMessage_msg_get_of_lt s hk.le_length hj]
    exact exists_fromBits_take_getElem? hk.le_length hj

/-- Settles O33: the search finds nothing, and DECODE raises NoHiddenMessage. -/
theorem noDelimiterIsNoHiddenMessage : Obligations.NoDelimiterIsNoHiddenMessage := by
  intro s S hn hlen hS hnone
  rw [exec_decode_of_streamIs hn hlen hS, endDecode_of_no_delimAt hnone, State.raise_noHiddenMessage]

/-- Settles O34: the first delimiter decides: STRICT_K8 1 stops at its offset, STRICT_K8 0 delivers the whole bytes before
it, which the bits past them do not change. -/
theorem unalignedDelimiterFollowsStrictK8 : Obligations.UnalignedDelimiterFollowsStrictK8 := by
  intro s S k hn hlen hS hk hk8
  rw [exec_decode_of_streamIs hn hlen hS, endDecode_of_firstDelimAt hk]
  constructor
  · intro hstrict
    rw [if_pos ⟨hstrict, hk8⟩, State.raise_noHiddenMessage]
  · intro hstrict
    rw [if_neg (by simp [hstrict]), fromBits_take_whole_bytes hk.le_length]
    rfl

/-- Settles O35: five pixels have 15 payload bits, one too few for a delimiter. -/
theorem tinyBuffersHoldNoMessage : Obligations.TinyBuffersHoldNoMessage := by
  intro s hfive hn hdefined
  obtain ⟨S, hS⟩ := Option.isSome_iff_exists.1 (State.stream_isSome.2 hdefined)
  obtain ⟨hlen, hbits⟩ := State.stream_eq_some.1 hS
  refine noDelimiterIsNoHiddenMessage s S hn hlen hbits fun j hj => ?_
  have hroom : j + 16 ≤ 3 * s.pixcnt.toNat := hlen ▸ hj.add_sixteen_le
  omega

/-! #### What DECODE leaves alone and what it does not look at (R148, R149, R153) -/

/-- Settles O36: a failure writes STATUS and DPOS, and a success beside them MSGLEN and the MSG bytes before its delimiter,
which lies whole inside the stream. -/
theorem decodeNeverWritesPix : Obligations.DecodeNeverWritesPix := by
  intro s t h
  rcases exec_decode_next h with ⟨f, rfl⟩ | ⟨-, S, k, hS, hk, rfl⟩
  · exact ⟨rfl, rfl, rfl, rfl, rfl, rfl, fun j _ => rfl⟩
  · have hroom : k / 8 ≤ (3 * s.pixcnt.toNat - 16) / 8 :=
      Nat.div_le_div_right (Nat.le_sub_of_add_le (hk.add_sixteen_le hS))
    exact ⟨rfl, rfl, rfl, rfl, rfl, rfl, fun j hj => deliverMessage_msg_get_of_le s hk.le_length (hroom.trans hj)⟩

/-- With other values of MSGLEN and MSG, DECODE's end for a stream has the same STATUS and DPOS, and on success the same
MSGLEN and the same message (R149). -/
theorem endDecode_with_msglen_msg (s : State) (S : List Bool) (v : Word) (mem : Memory) :
    (endDecode { s with msglen := v, msg := mem } S).status = (endDecode s S).status ∧
    (endDecode { s with msglen := v, msg := mem } S).dpos = (endDecode s S).dpos ∧
    ((endDecode s S).runState = .done →
      (endDecode { s with msglen := v, msg := mem } S).msglen = (endDecode s S).msglen ∧
      ∀ j < (endDecode s S).dpos.toNat / 8,
        (endDecode { s with msglen := v, msg := mem } S).msg.get j = (endDecode s S).msg.get j) := by
  rcases endDecode_cases s.cfg S with hraise | ⟨k, hk, hdeliver⟩
  · rw [hraise s rfl, hraise { s with msglen := v, msg := mem } rfl]
    exact ⟨rfl, rfl, fun hdone => by simp at hdone⟩
  · rw [hdeliver s rfl, hdeliver { s with msglen := v, msg := mem } rfl]
    refine ⟨rfl, rfl, fun _ => ⟨rfl, fun j hj => ?_⟩⟩
    have hwhole : j < k / 8 := hj.trans_le (Nat.div_le_div_right (Nat.mod_le k _))
    rw [deliverMessage_msg_get_of_lt _ hk.le_length hwhole, deliverMessage_msg_get_of_lt _ hk.le_length hwhole]

/-- Settles O37: the range test and the stream do not see MSGLEN and MSG, and DECODE's end overwrites what it delivers. -/
theorem decodeIgnoresMsglenAndMsg : Obligations.DecodeIgnoresMsglenAndMsg := by
  intro s t v mem h
  rcases exec_decode_eq_next_iff.1 h with ⟨hrange, rfl⟩ | ⟨hrange, S, hS, rfl⟩
  · exact ⟨_, exec_decode_eq_next_iff.2 (.inl ⟨hrange, rfl⟩), rfl, rfl, fun hdone => by simp at hdone⟩
  · exact ⟨_, exec_decode_eq_next_iff.2 (.inr ⟨hrange, S, hS, rfl⟩), endDecode_with_msglen_msg s S v mem⟩

/-- Writing the same bytes into a canonical memory again changes nothing. -/
theorem Memory.setBytes_setBytes {m : Memory} (h : m.wf) (j : Nat) (r : List Byte) :
    (m.setBytes j r).setBytes j r = m.setBytes j r := by
  have hwf : (m.setBytes j r).wf := Memory.wf_setBytes h j r
  refine Memory.ext_get (Memory.wf_setBytes hwf j r) hwf fun a => ?_
  rw [Memory.get_setBytes, Memory.get_setBytes]
  split <;> rfl

/-- The end of a second DECODE of one stream is that of the first, whatever STATUS its issue left (R153). -/
theorem endDecode_endDecode {s : State} (hwf : s.msg.wf) (S : List Bool) (w : Word) :
    endDecode { endDecode s S with status := w } S = endDecode s S := by
  rcases endDecode_cases s.cfg S with hraise | ⟨k, -, hdeliver⟩
  · rw [hraise s rfl]
    exact hraise { s.raise .noHiddenMessage with status := w } rfl
  · rw [hdeliver s rfl, hdeliver { deliverMessage s S k with status := w } rfl]
    simp only [deliverMessage, State.finish, Memory.setBytes_setBytes hwf]

/-- Settles O40: the first DECODE leaves PIXCNT and PIX, so the second has its range test and its stream. -/
theorem decodeTwiceIsDecodeOnce : Obligations.DecodeTwiceIsDecodeOnce := by
  intro s t hwf h
  obtain ⟨hpix, hcfg, -, hpixcnt, -⟩ := decodeNeverWritesPix s t h
  refine ⟨hpix, hpixcnt, ?_⟩
  have hstream : ({ t with status := 0x00000001#32 } : State).stream = s.stream := by
    simp only [State.stream, State.pixelCount, hpix, hpixcnt]
  have hrange : ({ t with status := 0x00000001#32 } : State).decodeInRange = s.decodeInRange := by
    simp only [State.decodeInRange, State.pixelCount, hcfg, hpixcnt]
  rw [exec_decode_eq_next_iff, hstream, hrange]
  rcases exec_decode_eq_next_iff.1 h with ⟨hout, rfl⟩ | ⟨hin, S, hS, rfl⟩
  · exact .inl ⟨hout, rfl⟩
  · exact .inr ⟨hin, S, hS, (endDecode_endDecode hwf S _).symm⟩

end Sys2Proof.Machine

/-! ### The result codes EmptyInput and CapacityExceeded, and what a failure leaves alone (60_exceptions.md) -/

namespace Sys2Proof.Machine

/-! #### A failure leaves all but STATUS and DPOS (R166, R167) -/

/-- Settles O44: of the engine's three ends only the failure has STATE ERROR, and it writes STATUS and DPOS. -/
theorem failureChangesOnlyStatusAndDpos : Obligations.FailureChangesOnlyStatusAndDpos := by
  intro s t h herror
  rcases engineStep_next h with ⟨f, rfl⟩ | ⟨-, m, pix, -, -, rfl⟩ | ⟨-, -, S, k, -, -, rfl⟩
  · rfl
  · simp at herror
  · simp at herror

/-! #### ERR of a command's end (R24, R160) -/

/-- A failure's ERR is its code (R166). -/
theorem State.raise_errField (s : State) (f : Failure) : errField (s.raise f).status = BitVec.ofNat 3 f.code :=
  errField_failure f

/-- Success has ERR None (R165). -/
theorem State.finish_errField (s : State) (d : Nat) : errField (s.finish d).status = 0#3 := by
  rw [State.finish_status]
  decide

/-- DECODE ends with None, NoHiddenMessage or IllegalCommand (R160). -/
theorem exec_decode_errField {s t : State} (h : exec .decode s = .next t) :
    errField t.status ∈ [0#3, 3#3, 4#3] := by
  rcases execDecode_next h with ⟨-, rfl⟩ | ⟨-, S, -, ⟨-, rfl⟩ | ⟨k, -, ⟨-, -, rfl⟩ | ⟨-, rfl⟩⟩⟩
  · rw [State.raise_errField]
    decide
  · rw [State.raise_errField]
    decide
  · rw [State.raise_errField]
    decide
  · rw [deliverMessage_status]
    decide

/-! #### ENCODE's tests on operands in range (R121, R161, R162) -/

theorem exec_encode_emptyInput {s : State} (hn : s.pixelCount ≤ s.cfg.pixMax) (hl : s.messageLength ≤ s.cfg.msgMax)
    (hempty : s.pixelCount = 0 ∨ s.messageLength = 0) : exec .encode s =
      .next (s.raise (.emptyInput (decide (s.pixelCount = 0)) (decide (s.messageLength = 0)))) := by
  rw [exec_encode_eq, encodeFailure, if_neg (by omega), if_pos hempty, Option.elim_some]

theorem exec_encode_capacityExceeded {s : State} (hn : s.pixelCount ≤ s.cfg.pixMax)
    (hl : s.messageLength ≤ s.cfg.msgMax) (hfull : ¬ (s.pixelCount = 0 ∨ s.messageLength = 0))
    (hcap : capOK s.pixelCount s.messageLength = false) :
    exec .encode s = .next (s.raise .capacityExceeded) := by
  rw [exec_encode_eq, encodeFailure, if_neg (by omega), if_neg hfull, if_pos hcap, Option.elim_some]

/-- ENCODE's ERR is 1 only when the emptiness test stopped it (R161). -/
theorem exec_encode_errField_one {s t : State} (h : exec .encode s = .next t) (herr : errField t.status = 1#3) :
    s.encodeInRange = true ∧ (s.pixelCount = 0 ∨ s.messageLength = 0) := by
  rcases execEncode_next h with ⟨-, rfl⟩ | ⟨hrange, hempty, -⟩ | ⟨-, -, -, rfl⟩ | ⟨-, m, pix, -, -, rfl⟩
  · rw [State.raise_errField] at herr
    simp [Failure.code] at herr
  · exact ⟨hrange, hempty⟩
  · rw [State.raise_errField] at herr
    simp [Failure.code] at herr
  · rw [State.finish_errField] at herr
    exact absurd herr (by decide)

/-- ENCODE's ERR is 2 only when the capacity test stopped it (R162). -/
theorem exec_encode_errField_two {s t : State} (h : exec .encode s = .next t) (herr : errField t.status = 2#3) :
    s.encodeInRange = true ∧ ¬ (s.pixelCount = 0 ∨ s.messageLength = 0) ∧
      capOK s.pixelCount s.messageLength = false := by
  rcases execEncode_next h with ⟨-, rfl⟩ | ⟨-, -, rfl⟩ | ⟨hrange, hfull, hcap, -⟩ | ⟨-, m, pix, -, -, rfl⟩
  · rw [State.raise_errField] at herr
    simp [Failure.code] at herr
  · rw [State.raise_errField] at herr
    simp [Failure.code] at herr
  · exact ⟨hrange, hfull, hcap⟩
  · rw [State.finish_errField] at herr
    exact absurd herr (by decide)

/-! #### The two codes that ENCODE alone ends in (R161, R162) -/

/-- EmptyInput's STATUS carries EI and EM beside STATE 3 and ERR 1 (R25, R26, R161). -/
theorem State.raise_emptyInput (s : State) :
    s.raise (.emptyInput true false) = { s with dpos := 0#32, status := 0x00000027#32 } ∧
    s.raise (.emptyInput false true) = { s with dpos := 0#32, status := 0x00000047#32 } ∧
    s.raise (.emptyInput true true) = { s with dpos := 0#32, status := 0x00000067#32 } :=
  ⟨rfl, rfl, rfl⟩

theorem State.raise_capacityExceeded (s : State) :
    s.raise .capacityExceeded = { s with dpos := 0#32, status := 0x0000000B#32 } := by
  rw [State.raise, statusOfFailure_capacityExceeded]

/-- Settles O26: the emptiness test comes right after the range test and names which operand is empty; no other end of
ENCODE has ERR 1, and no end of DECODE. -/
theorem emptyInputIsEncodesAlone : Obligations.EmptyInputIsEncodesAlone := by
  intro s
  obtain ⟨himage, hmessage, hboth⟩ := State.raise_emptyInput s
  refine ⟨fun hn hl => ⟨fun hn0 hl0 => ?_, fun hn0 hl0 => ?_, fun hn0 hl0 => ?_⟩, fun t h herr => ?_,
    fun t h herr => ?_⟩
  · rw [exec_encode_emptyInput hn hl (.inl hn0), decide_eq_true hn0, decide_eq_false hl0, himage]
  · rw [exec_encode_emptyInput hn hl (.inr hl0), decide_eq_false hn0, decide_eq_true hl0, hmessage]
  · rw [exec_encode_emptyInput hn hl (.inl hn0), decide_eq_true hn0, decide_eq_true hl0, hboth]
  · obtain ⟨hrange, hempty⟩ := exec_encode_errField_one h herr
    obtain ⟨hn, hl⟩ := State.encodeInRange_iff.1 hrange
    exact ⟨hn, hl, hempty⟩
  · have hmem := exec_decode_errField h
    simp [herr] at hmem

/-- Settles O27: with both operands in range and not empty the capacity test decides; no other end of ENCODE has ERR 2, and
no end of DECODE. -/
theorem capacityExceededIsEncodesAlone : Obligations.CapacityExceededIsEncodesAlone := by
  intro s
  refine ⟨fun hn1 hn hl1 hl hshort => ?_, fun t h herr => ?_, fun t h herr => ?_⟩
  · have hfull : ¬ (s.pixelCount = 0 ∨ s.messageLength = 0) :=
      not_or.2 ⟨Nat.pos_iff_ne_zero.1 hn1, Nat.pos_iff_ne_zero.1 hl1⟩
    rw [exec_encode_capacityExceeded hn hl hfull (capOK_eq_false_iff.2 hshort), State.raise_capacityExceeded]
  · obtain ⟨hrange, hfull, hcap⟩ := exec_encode_errField_two h herr
    obtain ⟨hn, hl⟩ := State.encodeInRange_iff.1 hrange
    obtain ⟨hn0, hl0⟩ := not_or.1 hfull
    exact ⟨Nat.pos_of_ne_zero hn0, hn, Nat.pos_of_ne_zero hl0, hl, capOK_eq_false_iff.1 hcap⟩
  · have hmem := exec_decode_errField h
    simp [herr] at hmem

end Sys2Proof.Machine

/-! ### Reset, and the attempts without a meaning (70_reset_and_hazards.md) -/

namespace Sys2Proof.Machine

/-! #### Reset (R190 to R193) -/

/-- The platform's turn is reset, whatever the state (R190). -/
theorem step_of_reset {s : State} {rest : List Turn} (ht : s.turns = .reset :: rest) :
    step s = .next (s.afterTurn rest).powerReset := by
  simp only [step, takeTurn, ht, resetTurn]

/-- Settles O2: the step is reset whatever STATE is, and `powerReset` of the state after the turn is the reset state of its
parameters with the turns to come and the replies (log 14). -/
theorem resetComesInAnyState : Obligations.ResetComesInAnyState := by
  intro s rest ht
  exact step_of_reset ht

/-! #### Hazards (R200 to R206) -/

/-- A second issue while BUSY is refused under its own name (R201; log 12). -/
theorem hostAct_wrCmd_of_busy {s : State} (hb : s.runState = .busy) (w : Word) :
    hostAct (.wr 0 w) s = .refused .issueWhileBusy := if_pos hb

/-- Settles O15: a transaction that the block refuses while BUSY is refused by the step too; with a ready command latched, the
step of `WR CMD` and of `RD STATUS` is the transaction's own outcome (log 5). -/
theorem onlyStatusMayBeReadWhileBusy : Obligations.OnlyStatusMayBeReadWhileBusy := by
  intro s x rest hb ht
  refine ⟨fun hrd hpoll => step_refused_of_busy ht hb hrd hpoll, ?_, ?_⟩
  · rintro hready w rfl
    exact (step_of_host_ready ht hb nofun hready).trans (hostAct_wrCmd_of_busy (s := s.afterTurn rest) hb w)
  · rintro hready rfl
    exact (step_of_host_ready ht hb nofun hready).trans hostAct_rdStatus

/-- Settles O16: no state gives an ill-formed transaction a meaning. -/
theorem illFormedTransactionsAreRefused : Obligations.IllFormedTransactionsAreRefused := by
  intro s x rest hform ht
  exact step_refused_of_illFormed ht hform

end Sys2Proof.Machine
